-- ==== Sys2Proof/Word.lean ====
section
/-! DEFINITION. The two value types of the machine: bytes and 16-bit words (spec 00_scope.md R5, R6).
Both are unsigned; `+` and `-` on them are the spec's `+8`, `+16` and `-16` (R7). -/

namespace Sys2Proof

/-- `u8`: a byte, the width of `A`, `X`, `Y` and of a memory cell (R5, R6). -/
abbrev Byte := BitVec 8

/-- `u16`: a 16-bit word, the width of an address, of `PC` and of `SP` (R5, R6). -/
abbrev Word := BitVec 16

end Sys2Proof
end

