-- ==== Sys2Proof/Syntax.lean ====
section
/-! DEFINITION. The instructions: the four defined opcodes and the one behaviour of every other opcode value
(spec 30_encoding.md R48, R49). Operands are held as decoded, so the machine never sees raw encodings. -/

namespace Sys2Proof

/-- One constructor per row of the table of R49. The 252 rows `UNRECOGNIZED` of opcode_table.json differ only in
the opcode byte and share the one rule R81, so one constructor carries that byte (log entry 12). -/
inductive Instr where
  /-- LDA immediate, `A9 imm8` (R75). -/
  | ldaImm (imm8 : Byte)
  /-- LDA zero-page, `A5 zp8` (R76). -/
  | ldaZp (zp8 : Byte)
  /-- LDA zero-page,X, `B5 zp8` (R77). -/
  | ldaZpX (zp8 : Byte)
  /-- JSR absolute, `20 lo hi` (R79). -/
  | jsr (addr16 : Word)
  /-- UNRECOGNIZED, the one byte `op` (R81). -/
  | unrecognized (op : Byte)
  deriving DecidableEq, Repr

end Sys2Proof
end

