-- ==== Sys2Proof/WellFormed.lean ====
section
/-! DEFINITION. Which terms of `Instr` stand for an instruction of the machine. The one check: an unrecognized
opcode is none of the four defined ones (spec 30_encoding.md R44, R48; 44_unrecognized_opcodes.md R81). -/

namespace Sys2Proof

/-- The four opcode values that select an instruction (R48). -/
def definedOpcodes : List Byte := [0xA9, 0xA5, 0xB5, 0x20]

/-- Every operand value of the four defined instructions is legal (R78 (f), R79); `op` of an unrecognized
opcode is any byte outside `definedOpcodes` (R81). -/
def Instr.wf : Instr → Bool
  | .ldaImm _ => true
  | .ldaZp _ => true
  | .ldaZpX _ => true
  | .jsr _ => true
  | .unrecognized op => !definedOpcodes.contains op

end Sys2Proof
end

