-- ==== Sys2Proof/Decode.lean ====
section
/-! DEFINITION. The decoder and, after it, the encoder (spec 30_encoding.md R43 to R51), with the byte-order and
extension helpers that the machine shares with them (R6, R7, R32). -/

namespace Sys2Proof

/-- `{h, l} = h * 256 + l` (R6): the word with high byte `h` and low byte `l`. -/
def wordOf (h l : Byte) : Word := h ++ l

/-- `w[7:0]` (R6). -/
def lowByte (w : Word) : Byte := w.extractLsb' 0 8

/-- `w[15:8]` (R6). -/
def highByte (w : Word) : Byte := w.extractLsb' 8 8

/-- `zext_16(b)` (R7): the word with the same number, high byte 0; never a sign extension. -/
def zext16 (b : Byte) : Word := b.setWidth 16

/-- The three formats of R44, R45, R46: what an opcode byte selects, waiting for its operand bytes. -/
inductive Layout where
  /-- format `OP`: no operand byte -/
  | op (i : Instr)
  /-- format `OP_B`: one operand byte -/
  | opB (mk : Byte → Instr)
  /-- format `OP_W`: two operand bytes, low byte first -/
  | opW (mk : Word → Instr)

/-- The opcode map (R48, R49): total, closed over the four defined values, decided by the opcode byte alone. -/
def layoutOf (op : Byte) : Layout :=
  if op = 0xA9#8 then .opB .ldaImm
  else if op = 0xA5#8 then .opB .ldaZp
  else if op = 0xB5#8 then .opB .ldaZpX
  else if op = 0x20#8 then .opW .jsr
  else .op (.unrecognized op)

/-- Why a list of bytes holds no whole instruction. In memory this cannot arise: every byte has a successor
(addresses wrap, R43), so only a list that ends too early is rejected. -/
inductive DecodeError where
  /-- there is no opcode byte -/
  | noOpcode
  /-- the list ends before the operand bytes that opcode `op` takes -/
  | missingOperand (op : Byte)
  deriving DecidableEq, Repr

/-- What decoding a list of bytes answers: an instruction with the bytes after it, or a rejection by name. -/
inductive DecodeResult where
  | instr (i : Instr) (rest : List Byte)
  | rejected (why : DecodeError)
  deriving DecidableEq, Repr

/-- The decoder on a list of bytes, opcode first (R43, R47, R51). -/
def decode : List Byte → DecodeResult
  | [] => .rejected .noOpcode
  | op :: rest =>
    match layoutOf op, rest with
    | .op i, rest => .instr i rest
    | .opB mk, b :: rest => .instr (mk b) rest
    | .opW mk, lo :: hi :: rest => .instr (mk (wordOf hi lo)) rest
    | _, _ => .rejected (.missingOperand op)

/-- The decoder where no byte can be missing: the opcode and the two bytes that follow it in memory (R43, R47).
An instruction shorter than three bytes leaves the bytes after it unused (R51). -/
def decodeThree (op b1 b2 : Byte) : Instr :=
  match layoutOf op with
  | .op i => i
  | .opB mk => mk b1
  | .opW mk => mk (wordOf b2 b1)

/-- The bytes of an instruction, opcode first, the low byte of an address before its high byte (R44 to R47). -/
def encode : Instr → List Byte
  | .ldaImm imm8 => [0xA9, imm8]
  | .ldaZp zp8 => [0xA5, zp8]
  | .ldaZpX zp8 => [0xB5, zp8]
  | .jsr addr16 => [0x20, lowByte addr16, highByte addr16]
  | .unrecognized op => [op]

/-- The number of bytes an instruction occupies (R49, R51). -/
def Instr.length : Instr → Nat
  | .ldaImm _ => 2
  | .ldaZp _ => 2
  | .ldaZpX _ => 2
  | .jsr _ => 3
  | .unrecognized _ => 1

/-- An instruction numbered as opcode_table.json numbers its bits (bit 0 the least significant bit of the first
byte), laid out as three bytes, first byte first; bits from `nbits` up are 0. -/
def tableBytes (nbits w : Nat) : List Byte :=
  [BitVec.ofNat 8 (w % 2 ^ nbits), BitVec.ofNat 8 (w % 2 ^ nbits / 256), BitVec.ofNat 8 (w % 2 ^ nbits / 65536)]

/-- The instruction the decoder reads from the bits `w` of a row of opcode_table.json. -/
def decodeTableWord (nbits w : Nat) : Option Instr :=
  match decode (tableBytes nbits w) with
  | .instr i _ => some i
  | .rejected _ => none

end Sys2Proof
end

