-- ==== Sys2Proof/Config.lean ====
section
/-! DEFINITION. The fixed parameters of the machine (spec 00_scope.md R5). The spec leaves nothing an
instruction does undefined (93_implementation_defined.md), so there is no free value here. `SP_INC` stands with the
operations, in Machine/Ops.lean. -/

namespace Sys2Proof

/-- `MEM_SIZE`: number of memory cells, addresses 0 to 65535 (R5, R25). -/
def Config.memSize : Nat := 65536

/-- `RESET_PC` (R5, R22): the address of the first opcode, not of a vector (R98). -/
def Config.resetPc : Word := 0xFFFC

/-- `RESET_SP` (R5, R22). -/
def Config.resetSp : Word := 0x0100

end Sys2Proof
end

