-- ==== Sys2Proof/Machine/State.lean ====
section
/-! DEFINITION. The state of the block (spec 10_state.md R10 to R24; 20_memory.md R25), the state after Reset (R22),
and the reasons a step can stop. Plain data throughout. -/

namespace Sys2Proof.Machine

/-- The AddressSpace `M` (R25) as the list of its non-zero cells: addresses strictly rising, no cell holding what
an unlisted address reads as (`Memory.wf`, Machine/Ops.lean). -/
abbrev Memory := List Host.Cell

/-- The seven status flags, seven independent bits (R15); there is no packed byte (R24). -/
structure Flags where
  /-- Carry; written and read by no instruction (R17). -/
  c : Bool
  /-- Zero; written by the LDAs (R16, R74). -/
  z : Bool
  /-- Interrupt-disable; masks nothing (R17, R86). -/
  i : Bool
  /-- Decimal; selects nothing (R17). -/
  d : Bool
  /-- Break; marks nothing (R17, R86). -/
  b : Bool
  /-- Overflow; written and read by no instruction (R17). -/
  v : Bool
  /-- Negative; written by the LDAs (R16, R74). -/
  n : Bool
  deriving DecidableEq, Repr

/-- The one kind of output a step can have besides none (R58, R84). -/
inductive Event where
  /-- `Unrecognized(op)`: the opcode byte that selected no instruction, and nothing more (R81, R84). -/
  | unrecognized (op : Byte)
  deriving DecidableEq, Repr

/-- The state tuple of R21, the run-local counter `cyc`, and the output label of the latest step. -/
structure State where
  /-- `PC`: address of the next byte to fetch (R10). -/
  pc : Word
  /-- `SP`: address at which JSR writes its return word (R11). -/
  sp : Word
  /-- `A`, the accumulator (R12). -/
  a : Byte
  /-- `X`, the index of zero-page,X (R13). -/
  x : Byte
  /-- `Y`, which no instruction reads or writes (R14). -/
  y : Byte
  /-- `P`, the status flags (R15). -/
  p : Flags
  /-- `M`, the memory (R25). -/
  mem : Memory
  /-- `cyc`, the cycle counter of the running Execute call, signed and unbounded (R18). Between calls the spec has
  no such counter; the model keeps the last value, which Execute overwrites (log entry 1). -/
  cyc : Int
  /-- The `Event` that R58's Step returned: `none`, or what it emitted. The model's own field (log entry 2): no
  instruction reads it, every instruction writes it. -/
  event : Option Event
  deriving DecidableEq, Repr

/-- Nothing stops this machine: it raises no exception and knows no error condition that interrupts execution
(R64, R83, R88). No constructor, so no step can fault. -/
inductive Fault where
  deriving DecidableEq, Repr

/-- Why an operation has no meaning. -/
inductive Refusal where
  /-- Raised by an arm of `exec` for an instruction that has no meaning yet; no arm raises it. Safe: nothing is
  claimed of such an instruction. -/
  | notModelled (mnemonic : String)
  /-- Raised by the host operations of Machine/Block.lean other than Reset, before the first Reset (R23, D11).
  Safe: the spec gives no state there. No instruction raises it. -/
  | beforeFirstReset
  deriving DecidableEq, Repr

/-- All flags 0 (R22). -/
def Flags.cleared : Flags :=
  { c := false, z := false, i := false, d := false, b := false, v := false, n := false }

/-- The state after Reset (R22, R97). `cyc` and `event` are no state of R22's table: the values here are the
model's (log entries 1 and 2). -/
def State.reset : State :=
  { pc := Config.resetPc, sp := Config.resetSp, a := 0, x := 0, y := 0, p := Flags.cleared, mem := [],
    cyc := 0, event := none }

end Sys2Proof.Machine
end

