-- ==== Sys2Proof/Machine/Ops.lean ====
section
/-! DEFINITION. The named operations over memory and registers: raw byte access (spec 20_memory.md R26 to R28), the
four cycle-charging primitives (R30, R55, R56, R57), the event, the fetch of an instruction, and Reset (R97).
There is no operation that takes an exception and none that returns from one: the machine has neither (R83, R88, R90). -/

namespace Sys2Proof.Machine

/-- What an address with no listed cell reads as: the byte `Initialize` writes everywhere (R26). -/
def Memory.unlisted : Byte := 0x00

/-- The canonical form: addresses strictly rising and inside the address space (R25), no cell that reads as an
unlisted one. -/
abbrev Memory.wf (m : Memory) : Prop :=
  m.Pairwise (fun c d => c.1 < d.1) ∧ ∀ c ∈ m, c.1 < Config.memSize ∧ c.2 ≠ Memory.unlisted

/-- `MemRead(a, 1)`, the raw read `M[a]` (R27): changes nothing, charges nothing. -/
def Memory.read (m : Memory) (a : Word) : Byte :=
  match m with
  | [] => Memory.unlisted
  | c :: rest => if c.1 = a.toNat then c.2 else Memory.read rest a

/-- Put a cell before the first cell with a higher address. -/
def Memory.insertCell (c : Host.Cell) : Memory → Memory
  | [] => [c]
  | d :: rest => if c.1 < d.1 then c :: d :: rest else d :: Memory.insertCell c rest

/-- `MemWrite(a, 1, v)`, the raw write `M[a] <- v` (R28): every other cell is unchanged, nothing is charged. -/
def Memory.write (m : Memory) (a : Word) (v : Byte) : Memory :=
  if v = Memory.unlisted then m.filter (fun c => c.1 ≠ a.toNat)
  else Memory.insertCell (a.toNat, v) (m.filter (fun c => c.1 ≠ a.toNat))

/-- `Initialize()`: every cell 0x00 (R26). -/
def Memory.cleared : Memory := []

/-- `SP_INC`: what JSR adds to `SP` (R5; the spec's decision D4, log entry 6). -/
def spInc : Word := 1

/-- `cyc <- cyc - 1` (R8). -/
def State.charge (s : State) : State := { s with cyc := s.cyc - 1 }

/-- `PC <- target`. -/
def State.setPc (s : State) (target : Word) : State := { s with pc := target }

/-- `SP <- w`. -/
def State.setSp (s : State) (w : Word) : State := { s with sp := w }

/-- `A <- v`. -/
def State.setA (s : State) (v : Byte) : State := { s with a := v }

/-- `M[a] <- v`. -/
def State.store (s : State) (a : Word) (v : Byte) : State := { s with mem := s.mem.write a v }

/-- The output label of the step (R58): `none`, or what `emit` put out. -/
def State.output (s : State) (e : Option Event) : State := { s with event := e }

/-- `emit Unrecognized(op)` (R81). -/
def State.emitUnrecognized (s : State) (op : Byte) : State := s.output (some (.unrecognized op))

/-- What `FetchByte` does besides answering the byte: `PC <- PC +16 1`, one cycle (R55). -/
def State.passByte (s : State) : State := (s.setPc (s.pc + 1)).charge

/-- `FetchByte()` (R55). -/
def State.fetchByte (s : State) : Byte × State := (s.mem.read s.pc, s.passByte)

/-- `FetchWord()`: two `FetchByte`s, low byte first (R56). -/
def State.fetchWord (s : State) : Word × State :=
  let (lo, s1) := s.fetchByte
  let (hi, s2) := s1.fetchByte
  (wordOf hi lo, s2)

/-- `ReadByte(a)`, the processor's costed read: one cycle, `PC` stays (R57). -/
def State.readByte (s : State) (a : Word) : Byte × State := (s.mem.read a, s.charge)

/-- `WriteWord(w, a)`: low byte at `a`, then high byte at `a +16 1`, one cycle each (R30; the wrap is log entry 4). -/
def State.writeWord (s : State) (w a : Word) : State :=
  (((s.store a (lowByte w)).charge).store (a + 1) (highByte w)).charge

/-- Pass `n` bytes of the instruction stream: the effect of `n` `FetchByte`s whose bytes are already in hand. -/
def State.pass : Nat → State → State
  | 0, s => s
  | n + 1, s => State.pass n s.passByte

/-- How every meaning begins: the opcode and operand bytes of a `len`-byte instruction have been fetched, and the
step's output is `None` until something is emitted (R58). -/
def State.begin (s : State) (len : Nat) : State := (State.pass len s).output none

/-- The instruction at `PC`: its opcode byte decides, the next two bytes are there for its operands (R43, R47, R51).
Reading a cell has no effect (R36), so looking at all three bytes at once is the same as fetching one by one. -/
def State.fetchInstr (s : State) : Instr :=
  decodeThree (s.mem.read s.pc) (s.mem.read (s.pc + 1)) (s.mem.read (s.pc + 2))

/-- Store bytes at consecutive addresses, wrapping at the top. -/
def State.storeBytes (s : State) (a : Word) : List Byte → State
  | [] => s
  | b :: rest => (s.store a b).storeBytes (a + 1) rest

/-- `Reset()` (R97): the table of R22 whatever the state before. It touches no `cyc` (R99) and emits nothing. -/
def State.resetOp (s : State) : State :=
  { pc := 0xFFFC, sp := 0x0100, a := 0x00, x := 0x00, y := 0x00, p := Flags.cleared,
    mem := Memory.cleared, cyc := s.cyc, event := none }

end Sys2Proof.Machine
end

