-- ==== Sys2Proof/Machine/Operands.lean ====
section
/-! DEFINITION. The address-mode resolver: the five behaviours of spec 41_addressing_modes.md R67 to R72. Each starts
with `PC` at the first operand byte. The address formed from an operand byte is a definition of its own, which the
meanings (whose operand is already decoded) share with the resolutions that fetch it. -/

namespace Sys2Proof.Machine

/-- Zero-page: `EA = zext_16(zp8)` (R69). -/
def zeroPageAddr (zp8 : Byte) : Word := zext16 zp8

/-- Zero-page,X: `EA = zext_16((zp8 + X) mod 256)`; the carry out is discarded before the extension (R70). -/
def zeroPageXAddr (zp8 x : Byte) : Word := zext16 (zp8 + x)

/-- Zero-page,X once the operand byte is in hand: the index-addition cycle, then the address (R70). -/
def State.indexZeroPageX (s : State) (zp8 : Byte) : Word × State := (zeroPageXAddr zp8 s.x, s.charge)

/-- Stack push address: `SP` itself, all 16 bits (R72; log entry 7). -/
def State.stackAddr (s : State) : Word := s.sp

/-- Immediate: the operand is the next fetched byte (R68). -/
def State.resolveImmediate (s : State) : Byte × State := s.fetchByte

/-- Zero-page (R69). -/
def State.resolveZeroPage (s : State) : Word × State :=
  let (zp8, s1) := s.fetchByte
  (zeroPageAddr zp8, s1)

/-- Zero-page,X (R70). -/
def State.resolveZeroPageX (s : State) : Word × State :=
  let (zp8, s1) := s.fetchByte
  s1.indexZeroPageX zp8

/-- Absolute: the two operand bytes, low byte first (R71). -/
def State.resolveAbsolute (s : State) : Word × State := s.fetchWord

end Sys2Proof.Machine
end

