-- ==== Sys2Proof/Machine/Call.lean ====
section
/-! DEFINITION. JSR, the machine's one control transfer and its one instruction that writes memory
(spec 43_subroutine_call.md R79, R80). -/

namespace Sys2Proof.Machine

/-- What JSR does once its target is fetched: `ret <- PC -16 1`, `WriteWord(ret, SP)`, `SP <- SP +16 SP_INC`,
`PC <- target`, one extra cycle (R79). -/
def State.callTo (s : State) (target : Word) : State :=
  let s1 := s.writeWord (s.pc - 1) s.stackAddr
  ((s1.setSp (s1.sp + spInc)).setPc target).charge

/-- JSR absolute, `20 lo hi`, 3 bytes, 6 cycles (R79). -/
def execJsr (addr16 : Word) (s : State) : Host.Outcome State Fault Refusal :=
  .next ((s.begin 3).callTo addr16)

end Sys2Proof.Machine
end

