-- ==== Sys2Proof/Machine/Flags.lean ====
section
/-! DEFINITION. Every flag computation of the machine: there is one, `LDASetStatus`
(spec 42_load_accumulator.md R74, R111 rows 9 and 10). -/

namespace Sys2Proof.Machine

/-- `LDASetStatus()`: `P.Z <- (A == 0)`, `P.N <- A[7]`; the other five flags are not touched (R74). -/
def State.ldaSetStatus (s : State) : State :=
  { s with p := { s.p with z := s.a == 0, n := s.a.getLsbD 7 } }

end Sys2Proof.Machine
end

