-- ==== Sys2Proof/Machine/Load.lean ====
section
/-! DEFINITION. The three load instructions (spec 42_load_accumulator.md R74 to R78). -/

namespace Sys2Proof.Machine

/-- `A <- v` and `LDASetStatus()`: how every LDA ends (R75, R76, R77). -/
def State.loadA (s : State) (v : Byte) : State := (s.setA v).ldaSetStatus

/-- `v <- ReadByte(EA)` and then the load (R76, R77). -/
def State.loadAFrom (s : State) (ea : Word) : State :=
  let (v, s1) := s.readByte ea
  s1.loadA v

/-- LDA immediate, `A9 imm8`, 2 bytes, 2 cycles (R75). -/
def execLdaImm (imm8 : Byte) (s : State) : Host.Outcome State Fault Refusal :=
  .next ((s.begin 2).loadA imm8)

/-- LDA zero-page, `A5 zp8`, 2 bytes, 3 cycles (R76). -/
def execLdaZp (zp8 : Byte) (s : State) : Host.Outcome State Fault Refusal :=
  .next ((s.begin 2).loadAFrom (zeroPageAddr zp8))

/-- LDA zero-page,X, `B5 zp8`, 2 bytes, 4 cycles whether or not the sum wraps (R77). -/
def execLdaZpX (zp8 : Byte) (s : State) : Host.Outcome State Fault Refusal :=
  let (ea, s1) := (s.begin 2).indexZeroPageX zp8
  .next (s1.loadAFrom ea)

end Sys2Proof.Machine
end

