-- ==== Sys2Proof/Machine/Unrecognized.lean ====
section
/-! DEFINITION. The 252 opcode values that select no instruction (spec 44_unrecognized_opcodes.md R81, R82): an
instruction of its own, which emits its event and goes on. -/

namespace Sys2Proof.Machine

/-- UNRECOGNIZED, the byte `op`, 1 byte, 1 cycle: `emit Unrecognized(op)` and nothing else (R81). -/
def execUnrecognized (op : Byte) (s : State) : Host.Outcome State Fault Refusal :=
  .next ((s.begin 1).emitUnrecognized op)

end Sys2Proof.Machine
end

