-- ==== Sys2Proof/Machine/Dispatch.lean ====
section
/-! DEFINITION. One arm per constructor of `Instr` (spec 40_fetch_execute_loop.md R58). `exec i s` runs the whole
instruction: `s` has `PC` at the opcode byte of `i`. -/

namespace Sys2Proof.Machine

def exec (i : Instr) (s : State) : Host.Outcome State Fault Refusal :=
  match i with
  | .ldaImm imm8 => Sys2Proof.Machine.execLdaImm imm8 s
  | .ldaZp zp8 => Sys2Proof.Machine.execLdaZp zp8 s
  | .ldaZpX zp8 => Sys2Proof.Machine.execLdaZpX zp8 s
  | .jsr addr16 => Sys2Proof.Machine.execJsr addr16 s
  | .unrecognized op => Sys2Proof.Machine.execUnrecognized op s

end Sys2Proof.Machine
end

