-- ==== Sys2Proof/Machine/Step.lean ====
section
/-! DEFINITION. One step of the machine: the spec's `Step()` (40_fetch_execute_loop.md R58). It does not test `cyc`
(R59); the loop that does is Machine/Run.lean. -/

namespace Sys2Proof.Machine

/-- `Step()` (R58): fetch the instruction at `PC` and run it. -/
def step (s : State) : Host.Outcome State Fault Refusal := exec s.fetchInstr s

/-- `s` with the instruction of bits `w` stored where `step` fetches its next one: the host's direct writes at
`PC`, `PC +16 1`, `PC +16 2` (R29). Nothing else changes. -/
def State.withFetchWord (s : State) (nbits w : Nat) : State := s.storeBytes s.pc (tableBytes nbits w)

end Sys2Proof.Machine
end

