-- ==== Sys2Proof/Machine/Run.lean ====
section
/-! DEFINITION. The run loop `Execute(budget)` (spec 40_fetch_execute_loop.md R60 to R66) and a run of a given number
of steps. -/

namespace Sys2Proof.Machine

/-- What a run leaves: the state, whose `cyc` is `cyc_final`, and the events emitted, in order (R60). -/
structure RunResult where
  final : State
  events : List Event
  deriving DecidableEq, Repr

/-- `while cyc > 0 do e <- Step(); if e != None then events <- events ++ [e]` (R60), for at most `fuel` passes.
Every step charges at least one cycle (R63), so a fuel of `cyc` passes is never used up before the test fails. -/
def runLoop : Nat → State → List Event → Host.Outcome RunResult Fault Refusal
  | 0, s, events => .next { final := s, events := events }
  | fuel + 1, s, events =>
    if 0 < s.cyc then
      match step s with
      | .next t => runLoop fuel t (events ++ t.event.toList)
      | .fault r => .fault r
      | .refused r => .refused r
    else .next { final := s, events := events }

/-- `cyc <- budget`: the counter that this Execute call creates (R18, R60). -/
def State.withBudget (s : State) (budget : Int) : State := { s with cyc := budget }

/-- `Execute(budget)` (R60): registers, flags and memory carry over from whatever state the block is in. -/
def execute (budget : Int) (s : State) : Host.Outcome RunResult Fault Refusal :=
  runLoop budget.toNat (s.withBudget budget) []

/-- `k` whole steps with the events they emit, in order; `cyc` is charged but not tested. -/
def runSteps : Nat → State → List Event → Host.Outcome RunResult Fault Refusal
  | 0, s, events => .next { final := s, events := events }
  | k + 1, s, events =>
    match step s with
    | .next t => runSteps k t (events ++ t.event.toList)
    | .fault r => .fault r
    | .refused r => .refused r

end Sys2Proof.Machine
end

