-- ==== Sys2Proof/Machine/Block.lean ====
section
/-! DEFINITION. The block as its host sees it: the three host operations and host reads
(spec 70_reset_and_hazards.md R97 to R103; 20_memory.md R29; 10_state.md R23). Each operation is one move, so the
host has no move while Execute runs (R103). -/

namespace Sys2Proof.Machine

/-- The block before and after its first Reset. -/
inductive Block where
  /-- Created and never reset: no piece of state has a value (R23, D11). -/
  | unreset
  /-- Reset at least once and between Execute calls. -/
  | ready (s : State)
  deriving DecidableEq, Repr

/-- The host's three operations (R100). -/
inductive HostCommand where
  /-- `Reset()` (R97). -/
  | reset
  /-- A direct write `M[a] <- v` (R29). -/
  | write (a : Word) (v : Byte)
  /-- `Execute(budget)` (R101). -/
  | execute (budget : Int)
  deriving DecidableEq, Repr

/-- What a host operation answers: the block after it and the events it emitted. -/
structure HostReply where
  block : Block
  events : List Event
  deriving DecidableEq, Repr

/-- Execute as a host operation (R101). -/
def State.hostExecute (s : State) (budget : Int) : Host.Outcome HostReply Fault Refusal :=
  match execute budget s with
  | .next r => .next { block := .ready r.final, events := r.events }
  | .fault r => .fault r
  | .refused r => .refused r

/-- One host operation (R100). Before the first Reset only Reset has a meaning (R23, D11; log entry 10). -/
def hostStep (b : Block) (c : HostCommand) : Host.Outcome HostReply Fault Refusal :=
  match b, c with
  | .unreset, .reset => .next { block := .ready State.reset, events := [] }
  | .unreset, .write _ _ => .refused .beforeFirstReset
  | .unreset, .execute _ => .refused .beforeFirstReset
  | .ready s, .reset => .next { block := .ready s.resetOp, events := [] }
  | .ready s, .write a v => .next { block := .ready (s.store a v), events := [] }
  | .ready s, .execute budget => s.hostExecute budget

/-- A host read of one cell between Execute calls (R29, D10). -/
def Block.hostRead (b : Block) (a : Word) : Host.Outcome Byte Fault Refusal :=
  match b with
  | .unreset => .refused .beforeFirstReset
  | .ready s => .next (s.mem.read a)

end Sys2Proof.Machine
end

