-- ==== Sys2Proof/Machine/Pseudocode.lean ====
section
/-! DEFINITION. The spec's own pseudocode of one step, primitive by primitive and in its order
(40_fetch_execute_loop.md R58; 42_load_accumulator.md R75 to R77; 43_subroutine_call.md R79;
44_unrecognized_opcodes.md R81): bytes are fetched when the rule fetches them, and the event is returned, not stored.
`step` (Machine/Step.lean) is the machine; this is the reference that claims compare it with. -/

namespace Sys2Proof.Machine

/-- R75, after the opcode fetch. -/
def pseudoLdaImm (s : State) : State :=
  let (v, s1) := s.resolveImmediate
  (s1.setA v).ldaSetStatus

/-- R76, after the opcode fetch. -/
def pseudoLdaZp (s : State) : State :=
  let (ea, s1) := s.resolveZeroPage
  let (v, s2) := s1.readByte ea
  (s2.setA v).ldaSetStatus

/-- R77, after the opcode fetch. -/
def pseudoLdaZpX (s : State) : State :=
  let (ea, s1) := s.resolveZeroPageX
  let (v, s2) := s1.readByte ea
  (s2.setA v).ldaSetStatus

/-- R79, after the opcode fetch. -/
def pseudoJsr (s : State) : State :=
  let (target, s1) := s.resolveAbsolute
  let ret := s1.pc - 1
  let s2 := s1.writeWord ret s1.sp
  let s3 := s2.setSp (s2.sp + spInc)
  let s4 := s3.setPc target
  s4.charge

/-- `Step() -> Event` (R58): the event returned and the state left. -/
def pseudoStep (s : State) : Option Event × State :=
  let (op, s1) := s.fetchByte
  if op = 0xA9#8 then (none, pseudoLdaImm s1)
  else if op = 0xA5#8 then (none, pseudoLdaZp s1)
  else if op = 0xB5#8 then (none, pseudoLdaZpX s1)
  else if op = 0x20#8 then (none, pseudoJsr s1)
  else (some (.unrecognized op), s1)

end Sys2Proof.Machine
end

