-- ==== Sys2Proof/Safety.lean ====
section
/-! DEFINITION. The terms in which claims about the machine are stated: its invariants, the cycle table, and what the
spec calls an LDA. -/

namespace Sys2Proof.Machine

/-- The next state an outcome holds, if it holds one. -/
def nextOf {σ φ ρ : Type} : Host.Outcome σ φ ρ → Option σ
  | .next t => some t
  | .fault _ => none
  | .refused _ => none

/-- The invariant of every state: memory is in its canonical form. -/
abbrev State.Inv (s : State) : Prop := s.mem.wf

/-- What holds along the documented flow Reset, load, Execute (R13, R14, R17; D10), beside canonical memory: `X`, `Y`
and the five unused flags are 0, and `Z` and `N` are never both 1 (R74). -/
abbrev State.FlowInv (s : State) : Prop :=
  s.mem.wf ∧ s.x = 0 ∧ s.y = 0 ∧ s.p.c = false ∧ s.p.i = false ∧ s.p.d = false ∧ s.p.b = false ∧ s.p.v = false ∧
    ¬(s.p.z = true ∧ s.p.n = true)

/-- The flow invariant of a block; a block never reset has no state to speak of (R23). -/
abbrev Block.FlowInv (b : Block) : Prop :=
  match b with
  | .unreset => True
  | .ready s => s.FlowInv

/-- The table of R22: `PC`, `SP`, the registers, the flags and every byte of memory after Reset. -/
abbrev State.MeetsResetTable (t : State) : Prop :=
  t.pc = 0xFFFC ∧ t.sp = 0x0100 ∧ t.a = 0x00 ∧ t.x = 0x00 ∧ t.y = 0x00 ∧
    t.p = { c := false, z := false, i := false, d := false, b := false, v := false, n := false } ∧
    ∀ adr, t.mem.read adr = 0x00

/-- The three LDA instructions (R16, R78). -/
def isLda : Instr → Bool
  | .ldaImm _ => true
  | .ldaZp _ => true
  | .ldaZpX _ => true
  | .jsr _ => false
  | .unrecognized _ => false

/-- Cycles charged by one step, opcode fetch included (R65). -/
def cyclesOf : Instr → Nat
  | .ldaImm _ => 2
  | .ldaZp _ => 3
  | .ldaZpX _ => 4
  | .jsr _ => 6
  | .unrecognized _ => 1

/-- The word that a word read at `a` gives: `{M[a +16 1], M[a]}` (R32). -/
def Memory.readWord (m : Memory) (a : Word) : Word := wordOf (m.read (a + 1)) (m.read a)

/-- A run of JSRs, one for each target (R80). -/
def jsrChain : List Word → State → Host.Outcome State Fault Refusal
  | [], s => .next s
  | target :: rest, s =>
    match exec (.jsr target) s with
    | .next t => jsrChain rest t
    | .fault r => .fault r
    | .refused r => .refused r

end Sys2Proof.Machine
end

