-- ==== Sys2Proof/Certificates/Slice0/Obligations.lean ====
section
/-! DEFINITION. The statements for the provers. Each docstring names the rule of spec/ it formalises, or says that it is
derived. Wherever a statement speaks of `PC +16 1`, `PC +16 2` or an address one past another, the wrap at the top is
the spec's own decision D2 or D3 (log entries 4 and 5). -/

open Sys2Proof Sys2Proof.Machine

/-! ### Encoding -/

/-- Every instruction, encoded and decoded again in front of any bytes, is itself, and the bytes after it are left
(derived from the formats of 30_encoding.md). -/
def Obligations.DecodeOfEncodeIsTheInstruction : Prop :=
  ∀ (i : Instr) (rest : List Byte), i.wf = true → decode (encode i ++ rest) = .instr i rest

/-- The other direction: what decodes is well-formed, and encoding it gives back exactly the bytes that were consumed, so
two different encodings never mean the same instruction (derived from 30_encoding.md). -/
def Obligations.DecodedInstructionEncodesToItsBytes : Prop :=
  ∀ (bytes rest : List Byte) (i : Instr), decode bytes = .instr i rest → i.wf = true ∧ encode i ++ rest = bytes

/-- R44, R45, R46: the three formats, on any operand bytes and whatever follows; and in memory the operand is what
`FetchByte` or `FetchWord` gives once the opcode byte is passed. -/
def Obligations.FormatsDecode : Prop :=
  (∀ (op b lo hi : Byte) (rest : List Byte),
    decode (0xA9 :: b :: rest) = .instr (.ldaImm b) rest ∧
    decode (0xA5 :: b :: rest) = .instr (.ldaZp b) rest ∧
    decode (0xB5 :: b :: rest) = .instr (.ldaZpX b) rest ∧
    (∃ addr16, decode (0x20 :: lo :: hi :: rest) = .instr (.jsr addr16) rest ∧
      addr16.toNat = lo.toNat + 256 * hi.toNat) ∧
    (op ≠ 0xA9 → op ≠ 0xA5 → op ≠ 0xB5 → op ≠ 0x20 → decode (op :: rest) = .instr (.unrecognized op) rest)) ∧
  ∀ s : State,
    (s.fetchByte.1 = 0xA9 → s.fetchInstr = .ldaImm s.fetchByte.2.fetchByte.1) ∧
    (s.fetchByte.1 = 0xA5 → s.fetchInstr = .ldaZp s.fetchByte.2.fetchByte.1) ∧
    (s.fetchByte.1 = 0xB5 → s.fetchInstr = .ldaZpX s.fetchByte.2.fetchByte.1) ∧
    (s.fetchByte.1 = 0x20 → s.fetchInstr = .jsr s.fetchByte.2.fetchWord.1)

/-- R48: which instruction the machine is at depends on the opcode byte at `PC` alone: four values select the four
instructions, every other value the unrecognized opcode. No register, flag or counter has a say. -/
def Obligations.OpcodeByteSelectsTheInstruction : Prop :=
  ∀ s : State,
    (s.mem.read s.pc = 0xA9 → ∃ imm8, s.fetchInstr = .ldaImm imm8) ∧
    (s.mem.read s.pc = 0xA5 → ∃ zp8, s.fetchInstr = .ldaZp zp8) ∧
    (s.mem.read s.pc = 0xB5 → ∃ zp8, s.fetchInstr = .ldaZpX zp8) ∧
    (s.mem.read s.pc = 0x20 → ∃ addr16, s.fetchInstr = .jsr addr16) ∧
    (s.mem.read s.pc ≠ 0xA9 → s.mem.read s.pc ≠ 0xA5 → s.mem.read s.pc ≠ 0xB5 → s.mem.read s.pc ≠ 0x20 →
      s.fetchInstr = .unrecognized (s.mem.read s.pc)) ∧
    ∀ t : State, t.pc = s.pc → t.mem = s.mem → t.fetchInstr = s.fetchInstr

/-- A few words written out from the spec's encodings (R44 to R47, 95_test_vectors.md) and what they stand for. -/
def Obligations.SampleWordsDecode : Prop :=
  decode [0xA9, 0x84] = .instr (.ldaImm 0x84) [] ∧ decode [0xA5, 0x42] = .instr (.ldaZp 0x42) [] ∧
  decode [0xB5, 0xF0] = .instr (.ldaZpX 0xF0) [] ∧ decode [0x20, 0x34, 0x12] = .instr (.jsr 0x1234) [] ∧
  decode [0x00, 0xA9] = .instr (.unrecognized 0x00) [0xA9] ∧ decode [0xA8, 0x01] = .instr (.unrecognized 0xA8) [0x01]

/-- The length of an instruction is a function of its opcode byte: 2 for A9, A5, B5; 3 for 20; 1 for every other value
(derived: R51 is marked so by the spec). -/
def Obligations.LengthIsAFunctionOfTheOpcode : Prop :=
  ∀ (op : Byte) (tail rest : List Byte) (i : Instr), decode (op :: tail) = .instr i rest →
    i.length = (if op = 0xA9 ∨ op = 0xA5 ∨ op = 0xB5 then 2 else if op = 0x20 then 3 else 1) ∧
    rest = tail.drop (i.length - 1) ∧ tail.length = (i.length - 1) + rest.length

/-! ### The step -/

/-- The three bytes at `PC` always decode, to a well-formed instruction, and `step` is `exec` of whatever they decode to
at that same state: `step` adds nothing around `exec` on this hardware, which itself moves `PC` past the instruction. -/
def Obligations.StepRunsTheDecodedInstruction : Prop :=
  ∀ s : State,
    (∀ i rest, decode [s.mem.read s.pc, s.mem.read (s.pc + 1), s.mem.read (s.pc + 2)] = .instr i rest →
      step s = exec i s) ∧
    ∃ i rest, decode [s.mem.read s.pc, s.mem.read (s.pc + 1), s.mem.read (s.pc + 2)] = .instr i rest ∧
      i.wf = true ∧ step s = exec i s

/-- In every state the step answers exactly the state and the event of the spec's pseudocode, which fetches byte by byte,
in its order, with every write after the reads that precede it. Derived: beside R58 the pseudocode of JSR (R79) carries
the spec's own decisions D4 (`SP` rises by 1, log entry 6) and D5 (the push goes to `SP` itself, log entry 7), and the
wraps D2 and D3 (log entries 4 and 5). -/
def Obligations.StepFollowsThePseudocode : Prop :=
  ∀ s : State, step s = .next ((pseudoStep s).2.output (pseudoStep s).1)

/-- R84: a step emits an event exactly when the opcode byte is none of the four; the event records that byte; and such a
step does nothing beyond the opcode fetch. Every step answers a next state. -/
def Obligations.UnrecognizedEventIffOpcodeUndefined : Prop :=
  ∀ s : State, ∃ t, step s = .next t ∧
    t.event = (if s.mem.read s.pc ∈ definedOpcodes then none else some (.unrecognized (s.mem.read s.pc))) ∧
    (s.mem.read s.pc ∉ definedOpcodes →
      t = { s with pc := s.pc + 1, cyc := s.cyc - 1, event := some (.unrecognized (s.mem.read s.pc)) })

/-! ### What each instruction does -/

/-- R75: LDA immediate, in every state and for every operand byte, by itself and as the step at bytes `A9 imm8`. -/
def Obligations.LdaImmediateResult : Prop :=
  ∀ (s : State) (imm8 : Byte),
    exec (.ldaImm imm8) s = .next { s with
      a := imm8, p := { s.p with z := decide (imm8 = 0x00), n := decide (0x80 ≤ imm8.toNat) },
      pc := s.pc + 2, cyc := s.cyc - 2, event := none } ∧
    (s.mem.read s.pc = 0xA9 → s.mem.read (s.pc + 1) = imm8 → step s = exec (.ldaImm imm8) s)

/-- R76: LDA zero-page. The byte is read at the address whose high byte is 0 and whose low byte is the operand. -/
def Obligations.LdaZeroPageResult : Prop :=
  ∀ (s : State) (zp8 v : Byte), v = s.mem.read (BitVec.ofNat 16 zp8.toNat) →
    exec (.ldaZp zp8) s = .next { s with
      a := v, p := { s.p with z := decide (v = 0x00), n := decide (0x80 ≤ v.toNat) },
      pc := s.pc + 2, cyc := s.cyc - 3, event := none } ∧
    (s.mem.read s.pc = 0xA5 → s.mem.read (s.pc + 1) = zp8 → step s = exec (.ldaZp zp8) s)

/-- R77: LDA zero-page,X. The byte is read at the address `(zp8 + X) mod 256`; `X` and `C` stay; always 4 cycles. -/
def Obligations.LdaZeroPageXResult : Prop :=
  ∀ (s : State) (zp8 v : Byte), v = s.mem.read (BitVec.ofNat 16 ((zp8.toNat + s.x.toNat) % 256)) →
    exec (.ldaZpX zp8) s = .next { s with
      a := v, p := { s.p with z := decide (v = 0x00), n := decide (0x80 ≤ v.toNat) },
      pc := s.pc + 2, cyc := s.cyc - 4, event := none } ∧
    (s.mem.read s.pc = 0xB5 → s.mem.read (s.pc + 1) = zp8 → step s = exec (.ldaZpX zp8) s)

/-- JSR (43_subroutine_call.md, R79). Derived: that `SP` rises by 1 and that the word goes to `SP` itself are the spec's
own decisions D4 and D5 (log entries 6 and 7), and the wraps D2 and D3. The word pushed is `p + 2` (conflict C2). Every
byte of memory is fixed: the one at the push address, the next one, and all others, which stay. -/
def Obligations.JsrResult : Prop :=
  ∀ (s : State) (addr16 : Word),
    (∃ t, exec (.jsr addr16) s = .next t ∧
      t = { s with pc := addr16, sp := s.sp + 1, mem := t.mem, cyc := s.cyc - 6, event := none } ∧
      t.mem.read s.sp = lowByte (s.pc + 2) ∧ t.mem.read (s.sp + 1) = highByte (s.pc + 2) ∧
      ∀ ea, (s.begin 3).stackAddr = ea →
        ea = s.sp ∧ ∀ adr, adr ≠ ea → adr ≠ ea + 1 → t.mem.read adr = s.mem.read adr) ∧
    (s.mem.read s.pc = 0x20 → wordOf (s.mem.read (s.pc + 2)) (s.mem.read (s.pc + 1)) = addr16 →
      step s = exec (.jsr addr16) s)

/-- R82: an opcode outside the table neither stops the machine nor changes anything but `PC`, the counter (by exactly
one) and the step's output; by itself and as the step at that byte. -/
def Obligations.UnrecognizedResult : Prop :=
  ∀ (s : State) (op : Byte), op ∉ definedOpcodes →
    exec (.unrecognized op) s = .next { s with
      pc := s.pc + 1, cyc := s.cyc - 1, event := some (.unrecognized op) } ∧
    (s.mem.read s.pc = op → step s = exec (.unrecognized op) s)

/-- R74: after every LDA, `Z` and `N` are those of the byte now in `A`, by the spec's table, whatever they were; the other
five flags are as before. -/
def Obligations.LdaFlagLaw : Prop :=
  ∀ (i : Instr) (s : State), isLda i = true → ∃ t, exec i s = .next t ∧
    t.p = { s.p with z := t.p.z, n := t.p.n } ∧
    (t.a = 0x00 → t.p.z = true ∧ t.p.n = false) ∧
    (0x01 ≤ t.a.toNat ∧ t.a.toNat ≤ 0x7F → t.p.z = false ∧ t.p.n = false) ∧
    (0x80 ≤ t.a.toNat → t.p.z = false ∧ t.p.n = true)

/-! ### Frames -/

/-- What an LDA (all three forms) leaves unchanged: every register but `A`, `PC`, every flag but `Z`, `N`, every byte of
memory. No event. -/
def Obligations.LdaFrame : Prop :=
  ∀ (i : Instr) (s t : State), isLda i = true → exec i s = .next t →
    t.sp = s.sp ∧ t.x = s.x ∧ t.y = s.y ∧ t.p.c = s.p.c ∧ t.p.i = s.p.i ∧ t.p.d = s.p.d ∧ t.p.b = s.p.b ∧
    t.p.v = s.p.v ∧ t.event = none ∧ ∀ adr, t.mem.read adr = s.mem.read adr

/-- What JSR leaves unchanged: every register but `SP` and `PC`, every flag, and every byte of memory outside the two at
the stack push address (computed as the meaning computes it) and the next one. No event. -/
def Obligations.JsrFrame : Prop :=
  ∀ (addr16 : Word) (s t : State), exec (.jsr addr16) s = .next t →
    t.a = s.a ∧ t.x = s.x ∧ t.y = s.y ∧ t.p = s.p ∧ t.event = none ∧
    ∀ ea, (s.begin 3).stackAddr = ea → ∀ adr, adr ≠ ea → adr ≠ ea + 1 → t.mem.read adr = s.mem.read adr

/-- What an unrecognized opcode leaves unchanged: every register but `PC`, every flag, every byte of memory. -/
def Obligations.UnrecognizedFrame : Prop :=
  ∀ (op : Byte) (s t : State), exec (.unrecognized op) s = .next t →
    t.sp = s.sp ∧ t.a = s.a ∧ t.x = s.x ∧ t.y = s.y ∧ t.p = s.p ∧ ∀ adr, t.mem.read adr = s.mem.read adr

/-! ### Rules about every step -/

/-- The cycles of each instruction, opcode fetch included, in every state: 2, 3, 4, 6, 1 (derived: the totals of R65 are
marked so). So every step charges at least one cycle and at most six. -/
def Obligations.CycleTotals : Prop :=
  (∀ (i : Instr) (s : State), ∃ t, exec i s = .next t ∧ t.cyc = s.cyc - cyclesOf i) ∧
  ∀ s : State, ∃ t, step s = .next t ∧ t.cyc = s.cyc - cyclesOf s.fetchInstr ∧ s.cyc - 6 ≤ t.cyc ∧ t.cyc ≤ s.cyc - 1

/-- Where `PC` goes: to the target of a JSR, otherwise past the instruction's bytes (derived from R10 and R88; the wrap is
the spec's decision D3). -/
def Obligations.PcAfterAStep : Prop :=
  ∀ s : State, ∃ t, step s = .next t ∧
    t.pc = (if s.mem.read s.pc = 0x20 then wordOf (s.mem.read (s.pc + 2)) (s.mem.read (s.pc + 1))
      else if s.mem.read s.pc = 0xA9 ∨ s.mem.read s.pc = 0xA5 ∨ s.mem.read s.pc = 0xB5 then s.pc + 2
      else s.pc + 1)

/-- The only memory a step can change is the two bytes at `SP` and after it, and only if it runs a JSR (derived from R35
and the stack address of R72, decision D5). -/
def Obligations.OnlyJsrWritesMemory : Prop :=
  ∀ s : State, ∃ t, step s = .next t ∧
    ∀ adr, (s.mem.read s.pc ≠ 0x20 ∨ (adr ≠ s.sp ∧ adr ≠ s.sp + 1)) → t.mem.read adr = s.mem.read adr

/-- R17: `C`, `I`, `D`, `B`, `V` are written by no instruction (each is as before), read by no instruction (other values of
them change nothing else of the next state), and are 0 after Reset. -/
def Obligations.UnusedFlagsAreNeitherReadNorWritten : Prop :=
  ∀ (s : State) (c i d b v : Bool), ∃ t, step s = .next t ∧
    t.p = { s.p with z := t.p.z, n := t.p.n } ∧
    step { s with p := { s.p with c := c, i := i, d := d, b := b, v := v } } =
      .next { t with p := { t.p with c := c, i := i, d := d, b := b, v := v } } ∧
    s.resetOp.p = { c := false, z := false, i := false, d := false, b := false, v := false, n := false }

/-- R16: `Z` and `N` are recomputed from `A` by exactly the three LDAs, left alone by JSR and every unrecognized opcode,
and read by no instruction: other values of them change nothing else. -/
def Obligations.ZAndNAreWrittenByLdaAndReadByNone : Prop :=
  ∀ (s : State) (z n : Bool), ∃ t, step s = .next t ∧
    if s.mem.read s.pc = 0xA9 ∨ s.mem.read s.pc = 0xA5 ∨ s.mem.read s.pc = 0xB5 then
      t.p.z = decide (t.a = 0) ∧ t.p.n = t.a.getLsbD 7 ∧
        step { s with p := { s.p with z := z, n := n } } = .next t
    else
      t.p = s.p ∧ step { s with p := { s.p with z := z, n := n } } = .next { t with p := { t.p with z := z, n := n } }

/-- R14: no instruction reads or writes `Y`; Reset writes 0x00. -/
def Obligations.YIsNeitherReadNorWritten : Prop :=
  ∀ (s : State) (y : Byte), ∃ t, step s = .next t ∧ t.y = s.y ∧ step { s with y := y } = .next { t with y := y } ∧
    s.resetOp.y = 0x00

/-- R12: `A` is written by the three LDAs and by Reset (to 0x00) only; its old value plays no part in any instruction. -/
def Obligations.AccumulatorIsWrittenByLdaOnly : Prop :=
  ∀ (s : State) (a : Byte), ∃ t, step s = .next t ∧
    (if s.mem.read s.pc = 0xA9 ∨ s.mem.read s.pc = 0xA5 ∨ s.mem.read s.pc = 0xB5 then step { s with a := a } = .next t
      else t.a = s.a ∧ step { s with a := a } = .next { t with a := a }) ∧
    s.resetOp.a = 0x00

/-- `X` is written by no instruction and read by LDA zero-page,X alone (derived from R13, whose start states with `X` not 0
are the spec's decision D10; log entry 18). -/
def Obligations.XIsReadByZeroPageXOnly : Prop :=
  ∀ (s : State) (x : Byte), ∃ t, step s = .next t ∧ t.x = s.x ∧
    (s.mem.read s.pc ≠ 0xB5 → step { s with x := x } = .next { t with x := x })

/-- `SP` is read and written by JSR alone, which adds 1 (derived from R11; the amount is decision D4, log entry 6). -/
def Obligations.SpIsReadAndWrittenByJsrOnly : Prop :=
  ∀ (s : State) (sp : Word), ∃ t, step s = .next t ∧
    if s.mem.read s.pc = 0x20 then t.sp = s.sp + 1
    else t.sp = s.sp ∧ step { s with sp := sp } = .next { t with sp := sp }

/-- R59: the counter has no say in what an instruction does, however low it is: with another counter value the same step
is taken whole, and only the counter after it differs, by as much. -/
def Obligations.StepDoesNotTestTheCounter : Prop :=
  ∀ (s : State) (cyc : Int), ∃ t, step s = .next t ∧
    step { s with cyc := cyc } = .next { t with cyc := cyc - (s.cyc - t.cyc) }

/-! ### Addressing, memory and the stack -/

/-- R68, R69, R70, R71: what each addressing mode resolves to, starting with `PC` at the first operand byte, and what the
resolution changes: `PC` and the counter, nothing else. The zero-page,X sum is reduced modulo 256 before it becomes an
address, so the effective address never leaves the zero page. -/
def Obligations.AddressingModesResolve : Prop :=
  ∀ s : State,
    s.resolveImmediate = (s.mem.read s.pc, { s with pc := s.pc + 1, cyc := s.cyc - 1 }) ∧
    s.resolveZeroPage.1.toNat = (s.mem.read s.pc).toNat ∧
    s.resolveZeroPage.2 = { s with pc := s.pc + 1, cyc := s.cyc - 1 } ∧
    s.resolveZeroPageX.1.toNat = ((s.mem.read s.pc).toNat + s.x.toNat) % 256 ∧
    s.resolveZeroPageX.2 = { s with pc := s.pc + 1, cyc := s.cyc - 2 } ∧
    s.resolveAbsolute.1.toNat = (s.mem.read s.pc).toNat + 256 * (s.mem.read (s.pc + 1)).toNat ∧
    s.resolveAbsolute.2 = { s with pc := s.pc + 2, cyc := s.cyc - 2 }

/-- The cycle-charging primitives: what each answers, and that it changes `PC` (the fetches) and the counter and nothing
else (derived from R55, R56, R57; the wrap of `PC` in R55 and R56 is decision D3, log entry 5). -/
def Obligations.PrimitivesChargeTheirCycles : Prop :=
  ∀ (s : State) (adr : Word),
    s.fetchByte = (s.mem.read s.pc, { s with pc := s.pc + 1, cyc := s.cyc - 1 }) ∧
    s.fetchWord.1.toNat = (s.mem.read s.pc).toNat + 256 * (s.mem.read (s.pc + 1)).toNat ∧
    s.fetchWord.2 = { s with pc := s.pc + 2, cyc := s.cyc - 2 } ∧
    s.readByte adr = (s.mem.read adr, { s with cyc := s.cyc - 1 })

/-- R33: the byte order is little-endian and fixed: after `WriteWord(w, a)`, in any state and at any address, the byte at
`a` is `w[7:0]`, the byte at `a +16 1` is `w[15:8]`, a word read there gives `w`, and so does an instruction fetch. -/
def Obligations.WordsAreLittleEndian : Prop :=
  ∀ (s : State) (w a : Word),
    ((s.writeWord w a).mem.read a).toNat = w.toNat % 256 ∧
    ((s.writeWord w a).mem.read (a + 1)).toNat = w.toNat / 256 ∧
    (s.writeWord w a).mem.readWord a = w ∧
    ((s.writeWord w a).setPc a).fetchWord.1 = w

/-- `WriteWord` (R30; derived, since its wrap at 0xFFFF is decision D2): two cycles, the two bytes, nothing else. -/
def Obligations.WriteWordChangesTwoBytes : Prop :=
  ∀ (s : State) (w a : Word), ∃ m,
    s.writeWord w a = { s with mem := m, cyc := s.cyc - 2 } ∧
    m.read a = lowByte w ∧ m.read (a + 1) = highByte w ∧ ∀ adr, adr ≠ a → adr ≠ a + 1 → m.read adr = s.mem.read adr

/-- Two memories in canonical form that read the same everywhere are the same data (the model's own representation of the
one array of R25; derived). -/
def Obligations.CanonicalMemoriesThatReadAlikeAreEqual : Prop :=
  ∀ m m' : Memory, m.wf → m'.wf → (∀ adr, m.read adr = m'.read adr) → m = m'

/-- A JSR takes its target from the bytes that stood at `PC +16 1`, `PC +16 2` before its stack write, even where that
write lands on them; and if the target is the stack cell itself, the next opcode fetched is the byte just written
(derived from R42 and R79 (e), (f); stack address and amount are decisions D5, D4). -/
def Obligations.JsrFetchesBeforeItWrites : Prop :=
  ∀ s : State, s.mem.read s.pc = 0x20 → ∃ t, step s = .next t ∧
    t.pc = wordOf (s.mem.read (s.pc + 2)) (s.mem.read (s.pc + 1)) ∧
    (t.pc = s.sp → t.mem.read t.pc = lowByte (s.pc + 2)) ∧
    (t.pc = s.sp + 1 → t.mem.read t.pc = highByte (s.pc + 2))

/-- After `n` JSRs, `SP` is `n` higher, the cells from the old `SP` on hold the low bytes of the `n` return words in order,
and the cell after them the high byte of the last one: each JSR overwrites its predecessor's high byte (derived: R80 is
marked so, and rests on decisions D4, D5; `n` stays below 65536, where the stack meets itself). The return word of a JSR
is the address of its opcode plus 2: the first JSR is at `PC`, each later one at its predecessor's target. -/
def Obligations.ChainedJsrsOverlapOnTheStack : Prop :=
  ∀ (s : State) (targets : List Word), 0 < targets.length → targets.length < 65536 →
    ∃ t, jsrChain targets s = .next t ∧
      t.sp = s.sp + BitVec.ofNat 16 targets.length ∧
      (∀ k, k < targets.length →
        t.mem.read (s.sp + BitVec.ofNat 16 k) = lowByte ((s.pc :: targets).getD k 0 + 2)) ∧
      t.mem.read (s.sp + BitVec.ofNat 16 targets.length) =
        highByte ((s.pc :: targets).getD (targets.length - 1) 0 + 2)

/-! ### Invariants -/

/-- Every step keeps memory in its canonical form, from every state that has it. -/
def Obligations.StepKeepsMemoryCanonical : Prop :=
  ∀ s t : State, s.Inv → step s = .next t → t.Inv

/-- The state after Reset has both invariants. -/
def Obligations.ResetMeetsTheInvariants : Prop :=
  State.reset.Inv ∧ State.reset.FlowInv

/-- Along the documented flow (any sequence of Reset, host writes and Execute calls) `X`, `Y` and the unused flags stay 0,
`Z` and `N` are never both 1, and memory stays canonical: every host operation keeps it, from any block that has it
(derived from R13, R14, R17, R74). -/
def Obligations.HostOperationsKeepTheFlow : Prop :=
  ∀ (b : Block) (c : HostCommand) (r : HostReply), b.FlowInv → hostStep b c = .next r → r.block.FlowInv

/-! ### Reset and the host -/

/-- R22, R97: what Reset leaves, whatever the state before: the values of R22's table, and the counter not touched; the
same for Reset as a host operation, for the first Reset of a block, and for `State.reset`. -/
def Obligations.ResetTable : Prop :=
  (∀ s : State, s.resetOp.MeetsResetTable ∧ s.resetOp.cyc = s.cyc) ∧
  (∀ s : State, ∃ t, hostStep (.ready s) .reset = .next { block := .ready t, events := [] } ∧
    t.MeetsResetTable ∧ t.cyc = s.cyc) ∧
  (∃ t, hostStep .unreset .reset = .next { block := .ready t, events := [] } ∧ t.MeetsResetTable) ∧
  State.reset.MeetsResetTable

/-- The whole state that the model's Reset leaves, with the fields that R22 gives no value. Derived: that `event` is then
`none`, and that the first Reset of a block leaves `cyc` 0, are the model's own choices (log entries 1, 2 and 16). -/
def Obligations.ResetLeavesTheResetState : Prop :=
  (∀ s : State, s.resetOp = { State.reset with cyc := s.cyc } ∧ s.resetOp.resetOp = s.resetOp ∧
    hostStep (.ready s) .reset = .next { block := .ready { State.reset with cyc := s.cyc }, events := [] }) ∧
  hostStep .unreset .reset = .next { block := .ready State.reset, events := [] }

/-- R98: after a Reset from any state, whatever program was then written to memory and whatever counter an Execute call
then created (and whatever output stands from before), the first step decodes the byte at 0xFFFC as an opcode and runs
the instruction there; no vector is read. -/
def Obligations.FirstOpcodeIsAtResetPc : Prop :=
  ∀ (s : State) (m : Memory) (cyc : Int) (event : Option Event) (i : Instr) (rest : List Byte),
    decode [m.read 0xFFFC, m.read 0xFFFD, m.read 0xFFFE] = .instr i rest →
      step { s.resetOp with mem := m, cyc := cyc, event := event } =
        exec i { s.resetOp with mem := m, cyc := cyc, event := event }

/-- Before the first Reset only Reset has a meaning (derived: the refusal is the spec's decision D11, log entry 10). -/
def Obligations.NothingButResetBeforeTheFirstReset : Prop :=
  (∀ c, (∃ r, hostStep .unreset c = .next r) ↔ c = .reset) ∧
  (∀ c, c ≠ .reset → hostStep .unreset c = .refused .beforeFirstReset) ∧
  (∀ adr, Block.hostRead .unreset adr = .refused .beforeFirstReset)

/-- A host write changes the one cell and nothing else: no register, no flag, no cycle, no event (derived from R29, whose
host read is decision D10). -/
def Obligations.HostWriteChangesOneCell : Prop :=
  ∀ (s : State) (adr : Word) (v : Byte), ∃ m,
    hostStep (.ready s) (.write adr v) = .next { block := .ready { s with mem := m }, events := [] } ∧
    ∀ other, Block.hostRead (.ready { s with mem := m }) other = .next (if other = adr then v else s.mem.read other)

/-! ### Execute -/

/-- R60: Execute is the loop of its pseudocode, in every state and for every budget: with `cyc <- budget`, no step while
`cyc > 0` fails; otherwise one step, its event if it has one, and then the same loop again from the state and the counter
that step left, its events after. The fuel of the model's loop never shows. -/
def Obligations.ExecuteIsTheWhileLoop : Prop :=
  ∀ (budget : Int) (s : State),
    (¬ 0 < budget → execute budget s = .next { final := { s with cyc := budget }, events := [] }) ∧
    (0 < budget → ∃ t r, step { s with cyc := budget } = .next t ∧ execute t.cyc t = .next r ∧
      execute budget s = .next { final := r.final, events := t.event.toList ++ r.events })

/-- Execute always ends, the counter it leaves is at most 0 and at least -5 (derived: R62 is marked so). -/
def Obligations.ExecuteOvershootsByAtMostFive : Prop :=
  ∀ (budget : Int) (s : State), 1 ≤ budget →
    ∃ r, execute budget s = .next r ∧ -5 ≤ r.final.cyc ∧ r.final.cyc ≤ 0

/-- The end of a run: Execute is a run of `k` whole steps, with `k` between a sixth of the budget and the budget, that
leaves what those steps leave and lists their events in order; every step but the last leaves a positive counter, and the
last does not (derived from R63 and R66). -/
def Obligations.ExecuteIsABoundedRunOfSteps : Prop :=
  ∀ (budget : Int) (s : State), ∃ (k : Nat) (r : RunResult),
    execute budget s = .next r ∧ runSteps k { s with cyc := budget } [] = .next r ∧
    (k : Int) ≤ max budget 0 ∧ budget ≤ 6 * (k : Int) ∧
    (budget ≤ 0 → r.final.cyc = budget) ∧ (0 < budget → r.final.cyc ≤ 0) ∧
    ∀ j, j < k → ∃ q, runSteps j { s with cyc := budget } [] = .next q ∧ 0 < q.final.cyc

/-- Successive Execute calls continue one instruction stream: running a budget in two parts, the second part reduced by
the first one's overshoot, is running it in one (derived from R60 and R101). -/
def Obligations.ExecuteComposes : Prop :=
  ∀ (b1 b2 : Int) (s : State), 0 ≤ b2 → ∃ r1 r2,
    execute b1 s = .next r1 ∧ execute (r1.final.cyc + b2) r1.final = .next r2 ∧
    execute (b1 + b2) s = .next { final := r2.final, events := r1.events ++ r2.events }

/-- To stop exactly after the instruction number `k + 1` the host supplies a budget above the cost of the first `k`
instructions and at most the cost of the first `k + 1`: then the run is those `k + 1` steps (derived: R109 is marked so).
The costs are read off a counter that starts at 0. -/
def Obligations.BudgetDecidesWhereExecuteStops : Prop :=
  ∀ (s : State) (k : Nat) (q q' : RunResult) (budget : Int),
    runSteps k { s with cyc := 0 } [] = .next q → runSteps (k + 1) { s with cyc := 0 } [] = .next q' →
    -q.final.cyc < budget → budget ≤ -q'.final.cyc →
      execute budget s = .next { final := { q'.final with cyc := budget + q'.final.cyc }, events := q'.events }

/-- `Execute(1)` runs exactly one instruction (derived: R96 marks it so). -/
def Obligations.ExecuteOneRunsOneInstruction : Prop :=
  ∀ s : State, ∃ t, step { s with cyc := 1 } = .next t ∧
    execute 1 s = .next { final := t, events := t.event.toList }

/-- Every event of a run names an opcode byte that is none of the four (derived from R60 and R84). -/
def Obligations.EventsNameUndefinedOpcodes : Prop :=
  ∀ (budget : Int) (s : State) (r : RunResult), execute budget s = .next r →
    ∀ e ∈ r.events, ∃ op, e = .unrecognized op ∧ op ∉ definedOpcodes
end

