-- ==== Sys2Proof/Laws/Memory.lean ====
section
/-! SUPPORT. The laws of memory: what a read gives after a write (on any list of cells), and that every memory operation
keeps the canonical form. -/

namespace Sys2Proof.Machine

theorem Memory.read_nil (a : Word) : Memory.read [] a = Memory.unlisted := rfl

theorem Memory.read_cons (c : Host.Cell) (m : Memory) (a : Word) :
    Memory.read (c :: m) a = if c.1 = a.toNat then c.2 else Memory.read m a := rfl

theorem Memory.read_filter_same (m : Memory) (a : Word) :
    Memory.read (m.filter (fun c => c.1 ≠ a.toNat)) a = Memory.unlisted := by
  induction m with
  | nil => rfl
  | cons c m ih =>
    by_cases h : c.1 = a.toNat
    · simpa [List.filter_cons, h] using ih
    · simpa [List.filter_cons, h, Memory.read_cons] using ih

theorem Memory.read_filter_other (m : Memory) {a b : Word} (hab : b ≠ a) :
    Memory.read (m.filter (fun c => c.1 ≠ a.toNat)) b = m.read b := by
  have hne : a.toNat ≠ b.toNat := fun h => hab (BitVec.eq_of_toNat_eq h.symm)
  induction m with
  | nil => rfl
  | cons c m ih =>
    by_cases h : c.1 = a.toNat
    · simpa [List.filter_cons, h, Memory.read_cons, hne] using ih
    · simp only [List.filter_cons, h, ne_eq, not_false_eq_true, decide_true, if_true, Memory.read_cons]
      rw [← ih]

theorem Memory.read_insertCell_same (m : Memory) (a : Word) (v : Byte) (h : ∀ c ∈ m, c.1 ≠ a.toNat) :
    Memory.read (Memory.insertCell (a.toNat, v) m) a = v := by
  induction m with
  | nil => simp [Memory.insertCell, Memory.read_cons]
  | cons c m ih =>
    have hc := h c (by simp)
    have hm := ih fun d hd => h d (by simp [hd])
    unfold Memory.insertCell
    split
    · simp [Memory.read_cons]
    · simp [Memory.read_cons, hc, hm]

theorem Memory.read_insertCell_other (m : Memory) {a b : Word} (v : Byte) (hab : b ≠ a) :
    Memory.read (Memory.insertCell (a.toNat, v) m) b = m.read b := by
  have hne : a.toNat ≠ b.toNat := fun h => hab (BitVec.eq_of_toNat_eq h.symm)
  induction m with
  | nil => simp [Memory.insertCell, Memory.read_cons, hne]
  | cons c m ih =>
    unfold Memory.insertCell
    split
    · simp [Memory.read_cons, hne]
    · simp [Memory.read_cons, ih]

/-- A read of the cell just written gives the byte written (R28, R36). -/
theorem Memory.read_write_same (m : Memory) (a : Word) (v : Byte) : (m.write a v).read a = v := by
  unfold Memory.write
  split
  · rename_i h; rw [h, Memory.read_filter_same]
  · exact Memory.read_insertCell_same _ _ _ (by simp)

/-- A write leaves every other cell as it was (R28, R36). -/
theorem Memory.read_write_other (m : Memory) {a b : Word} (v : Byte) (hab : b ≠ a) :
    (m.write a v).read b = m.read b := by
  unfold Memory.write
  split
  · exact Memory.read_filter_other m hab
  · rw [Memory.read_insertCell_other _ v hab, Memory.read_filter_other m hab]

/-- What a write does to every read. -/
theorem Memory.read_write (m : Memory) (a b : Word) (v : Byte) :
    (m.write a v).read b = if b = a then v else m.read b := by
  split
  · rename_i h; rw [h, Memory.read_write_same]
  · rename_i h; exact Memory.read_write_other m v h

theorem Memory.mem_insertCell {c d : Host.Cell} {m : Memory} : d ∈ Memory.insertCell c m ↔ d = c ∨ d ∈ m := by
  induction m with
  | nil => simp [Memory.insertCell]
  | cons e m ih =>
    unfold Memory.insertCell
    split
    · simp
    · simp only [List.mem_cons, ih]; tauto

theorem Memory.pairwise_insertCell {c : Host.Cell} {m : Memory} (hm : m.Pairwise (fun d e => d.1 < e.1))
    (hc : ∀ d ∈ m, d.1 ≠ c.1) : (Memory.insertCell c m).Pairwise (fun d e => d.1 < e.1) := by
  induction m with
  | nil => simp [Memory.insertCell]
  | cons e m ih =>
    obtain ⟨he, hm⟩ := List.pairwise_cons.mp hm
    have hec : e.1 ≠ c.1 := hc e (by simp)
    unfold Memory.insertCell
    split
    · rename_i h
      refine List.pairwise_cons.mpr ⟨fun d hd => ?_, List.pairwise_cons.mpr ⟨he, hm⟩⟩
      rcases List.mem_cons.mp hd with rfl | hd
      · exact h
      · exact h.trans (he d hd)
    · rename_i h
      refine List.pairwise_cons.mpr ⟨fun d hd => ?_, ih hm fun d hd => hc d (by simp [hd])⟩
      rcases Memory.mem_insertCell.mp hd with rfl | hd
      · omega
      · exact he d hd

theorem Memory.wf_filter {m : Memory} (p : Host.Cell → Bool) (hm : m.wf) : Memory.wf (m.filter p) :=
  ⟨hm.1.filter p, fun c hc => hm.2 c (List.mem_filter.mp hc).1⟩

/-- A write keeps the canonical form. -/
theorem Memory.wf_write {m : Memory} (a : Word) (v : Byte) (hm : m.wf) : (m.write a v).wf := by
  have hf := Memory.wf_filter (fun c => c.1 ≠ a.toNat) hm
  unfold Memory.write
  split
  · exact hf
  · rename_i hv
    refine ⟨Memory.pairwise_insertCell hf.1 (by simp), fun c hc => ?_⟩
    rcases Memory.mem_insertCell.mp hc with rfl | hc
    · exact ⟨a.isLt, hv⟩
    · exact hf.2 c hc

/-- `Initialize` leaves the canonical form, and every cell reads 0x00 (R26). -/
theorem Memory.wf_cleared : Memory.wf Memory.cleared := ⟨List.Pairwise.nil, by simp [Memory.cleared]⟩

theorem Memory.read_cleared (a : Word) : Memory.cleared.read a = 0x00 := rfl

end Sys2Proof.Machine
end

