-- ==== Sys2Proof/Laws/State.lean ====
section
/-! SUPPORT. One lemma per field for every update of the state, so that no proof unfolds a record update. -/

namespace Sys2Proof.Machine

variable (s : State)


@[simp] theorem State.charge_pc : (s.charge).pc = s.pc := rfl
@[simp] theorem State.charge_sp : (s.charge).sp = s.sp := rfl
@[simp] theorem State.charge_a : (s.charge).a = s.a := rfl
@[simp] theorem State.charge_x : (s.charge).x = s.x := rfl
@[simp] theorem State.charge_y : (s.charge).y = s.y := rfl
@[simp] theorem State.charge_p : (s.charge).p = s.p := rfl
@[simp] theorem State.charge_mem : (s.charge).mem = s.mem := rfl
@[simp] theorem State.charge_cyc : (s.charge).cyc = s.cyc - 1 := rfl
@[simp] theorem State.charge_event : (s.charge).event = s.event := rfl

@[simp] theorem State.setPc_pc (w : Word) : (s.setPc w).pc = w := rfl
@[simp] theorem State.setPc_sp (w : Word) : (s.setPc w).sp = s.sp := rfl
@[simp] theorem State.setPc_a (w : Word) : (s.setPc w).a = s.a := rfl
@[simp] theorem State.setPc_x (w : Word) : (s.setPc w).x = s.x := rfl
@[simp] theorem State.setPc_y (w : Word) : (s.setPc w).y = s.y := rfl
@[simp] theorem State.setPc_p (w : Word) : (s.setPc w).p = s.p := rfl
@[simp] theorem State.setPc_mem (w : Word) : (s.setPc w).mem = s.mem := rfl
@[simp] theorem State.setPc_cyc (w : Word) : (s.setPc w).cyc = s.cyc := rfl
@[simp] theorem State.setPc_event (w : Word) : (s.setPc w).event = s.event := rfl

@[simp] theorem State.setSp_pc (w : Word) : (s.setSp w).pc = s.pc := rfl
@[simp] theorem State.setSp_sp (w : Word) : (s.setSp w).sp = w := rfl
@[simp] theorem State.setSp_a (w : Word) : (s.setSp w).a = s.a := rfl
@[simp] theorem State.setSp_x (w : Word) : (s.setSp w).x = s.x := rfl
@[simp] theorem State.setSp_y (w : Word) : (s.setSp w).y = s.y := rfl
@[simp] theorem State.setSp_p (w : Word) : (s.setSp w).p = s.p := rfl
@[simp] theorem State.setSp_mem (w : Word) : (s.setSp w).mem = s.mem := rfl
@[simp] theorem State.setSp_cyc (w : Word) : (s.setSp w).cyc = s.cyc := rfl
@[simp] theorem State.setSp_event (w : Word) : (s.setSp w).event = s.event := rfl

@[simp] theorem State.setA_pc (v : Byte) : (s.setA v).pc = s.pc := rfl
@[simp] theorem State.setA_sp (v : Byte) : (s.setA v).sp = s.sp := rfl
@[simp] theorem State.setA_a (v : Byte) : (s.setA v).a = v := rfl
@[simp] theorem State.setA_x (v : Byte) : (s.setA v).x = s.x := rfl
@[simp] theorem State.setA_y (v : Byte) : (s.setA v).y = s.y := rfl
@[simp] theorem State.setA_p (v : Byte) : (s.setA v).p = s.p := rfl
@[simp] theorem State.setA_mem (v : Byte) : (s.setA v).mem = s.mem := rfl
@[simp] theorem State.setA_cyc (v : Byte) : (s.setA v).cyc = s.cyc := rfl
@[simp] theorem State.setA_event (v : Byte) : (s.setA v).event = s.event := rfl

@[simp] theorem State.store_pc (w : Word) (v : Byte) : (s.store w v).pc = s.pc := rfl
@[simp] theorem State.store_sp (w : Word) (v : Byte) : (s.store w v).sp = s.sp := rfl
@[simp] theorem State.store_a (w : Word) (v : Byte) : (s.store w v).a = s.a := rfl
@[simp] theorem State.store_x (w : Word) (v : Byte) : (s.store w v).x = s.x := rfl
@[simp] theorem State.store_y (w : Word) (v : Byte) : (s.store w v).y = s.y := rfl
@[simp] theorem State.store_p (w : Word) (v : Byte) : (s.store w v).p = s.p := rfl
@[simp] theorem State.store_mem (w : Word) (v : Byte) : (s.store w v).mem = s.mem.write w v := rfl
@[simp] theorem State.store_cyc (w : Word) (v : Byte) : (s.store w v).cyc = s.cyc := rfl
@[simp] theorem State.store_event (w : Word) (v : Byte) : (s.store w v).event = s.event := rfl

@[simp] theorem State.output_pc (e : Option Event) : (s.output e).pc = s.pc := rfl
@[simp] theorem State.output_sp (e : Option Event) : (s.output e).sp = s.sp := rfl
@[simp] theorem State.output_a (e : Option Event) : (s.output e).a = s.a := rfl
@[simp] theorem State.output_x (e : Option Event) : (s.output e).x = s.x := rfl
@[simp] theorem State.output_y (e : Option Event) : (s.output e).y = s.y := rfl
@[simp] theorem State.output_p (e : Option Event) : (s.output e).p = s.p := rfl
@[simp] theorem State.output_mem (e : Option Event) : (s.output e).mem = s.mem := rfl
@[simp] theorem State.output_cyc (e : Option Event) : (s.output e).cyc = s.cyc := rfl
@[simp] theorem State.output_event (e : Option Event) : (s.output e).event = e := rfl

@[simp] theorem State.withBudget_pc (k : Int) : (s.withBudget k).pc = s.pc := rfl
@[simp] theorem State.withBudget_sp (k : Int) : (s.withBudget k).sp = s.sp := rfl
@[simp] theorem State.withBudget_a (k : Int) : (s.withBudget k).a = s.a := rfl
@[simp] theorem State.withBudget_x (k : Int) : (s.withBudget k).x = s.x := rfl
@[simp] theorem State.withBudget_y (k : Int) : (s.withBudget k).y = s.y := rfl
@[simp] theorem State.withBudget_p (k : Int) : (s.withBudget k).p = s.p := rfl
@[simp] theorem State.withBudget_mem (k : Int) : (s.withBudget k).mem = s.mem := rfl
@[simp] theorem State.withBudget_cyc (k : Int) : (s.withBudget k).cyc = k := rfl
@[simp] theorem State.withBudget_event (k : Int) : (s.withBudget k).event = s.event := rfl

@[simp] theorem State.ldaSetStatus_pc : (s.ldaSetStatus).pc = s.pc := rfl
@[simp] theorem State.ldaSetStatus_sp : (s.ldaSetStatus).sp = s.sp := rfl
@[simp] theorem State.ldaSetStatus_a : (s.ldaSetStatus).a = s.a := rfl
@[simp] theorem State.ldaSetStatus_x : (s.ldaSetStatus).x = s.x := rfl
@[simp] theorem State.ldaSetStatus_y : (s.ldaSetStatus).y = s.y := rfl
@[simp] theorem State.ldaSetStatus_p : (s.ldaSetStatus).p = { s.p with z := s.a == 0, n := s.a.getLsbD 7 } := rfl
@[simp] theorem State.ldaSetStatus_mem : (s.ldaSetStatus).mem = s.mem := rfl
@[simp] theorem State.ldaSetStatus_cyc : (s.ldaSetStatus).cyc = s.cyc := rfl
@[simp] theorem State.ldaSetStatus_event : (s.ldaSetStatus).event = s.event := rfl

end Sys2Proof.Machine
end

