-- ==== Sys2Proof/Laws/Words.lean ====
section
/-! SUPPORT. The byte-order and extension helpers: splitting a word and putting it together again, and the opcode map
taken apart. -/

namespace Sys2Proof

theorem wordOf_high_low (w : Word) : wordOf (highByte w) (lowByte w) = w := by
  unfold wordOf highByte lowByte
  ext i hi
  simp only [BitVec.getElem_append, BitVec.getElem_extractLsb']
  split
  · simp [BitVec.getLsbD_eq_getElem hi]
  · have h : 8 + (i - 8) = i := by omega
    simp [h, BitVec.getLsbD_eq_getElem hi]

theorem wordOf_toNat (h l : Byte) : (wordOf h l).toNat = h.toNat * 256 + l.toNat := by
  have := l.isLt
  unfold wordOf
  rw [BitVec.toNat_append, Nat.shiftLeft_eq, Nat.mul_comm, ← Nat.two_pow_add_eq_or_of_lt this]

theorem lowByte_toNat (w : Word) : (lowByte w).toNat = w.toNat % 256 := by
  simp [lowByte, BitVec.extractLsb'_toNat]

theorem highByte_toNat (w : Word) : (highByte w).toNat = w.toNat / 256 := by
  have := w.isLt
  simp only [highByte, BitVec.extractLsb'_toNat, Nat.shiftRight_eq_div_pow]
  omega

theorem lowByte_wordOf (h l : Byte) : lowByte (wordOf h l) = l := by
  have := l.isLt
  apply BitVec.eq_of_toNat_eq
  rw [lowByte_toNat, wordOf_toNat]
  omega

theorem highByte_wordOf (h l : Byte) : highByte (wordOf h l) = h := by
  have := l.isLt
  apply BitVec.eq_of_toNat_eq
  rw [highByte_toNat, wordOf_toNat]
  omega

theorem zext16_toNat (b : Byte) : (zext16 b).toNat = b.toNat := by
  have := b.isLt
  simp only [zext16, BitVec.toNat_setWidth]
  omega

@[simp] theorem layoutOf_ldaImm : layoutOf 0xA9#8 = .opB .ldaImm := rfl

@[simp] theorem layoutOf_ldaZp : layoutOf 0xA5#8 = .opB .ldaZp := rfl

@[simp] theorem layoutOf_ldaZpX : layoutOf 0xB5#8 = .opB .ldaZpX := rfl

@[simp] theorem layoutOf_jsr : layoutOf 0x20#8 = .opW .jsr := rfl

/-- What the opcode map answers, once: one of five cases, each with the opcode it belongs to (R48). -/
theorem layoutOf_cases (op : Byte) :
    (op = 0xA9 ∧ layoutOf op = .opB .ldaImm) ∨ (op = 0xA5 ∧ layoutOf op = .opB .ldaZp) ∨
    (op = 0xB5 ∧ layoutOf op = .opB .ldaZpX) ∨ (op = 0x20 ∧ layoutOf op = .opW .jsr) ∨
    (op ∉ definedOpcodes ∧ layoutOf op = .op (.unrecognized op)) := by
  simp only [layoutOf, definedOpcodes, List.mem_cons, List.not_mem_nil, or_false, not_or]
  split_ifs <;> simp_all

theorem not_mem_definedOpcodes {op : Byte} :
    op ∉ definedOpcodes ↔ op ≠ 0xA9#8 ∧ op ≠ 0xA5#8 ∧ op ≠ 0xB5#8 ∧ op ≠ 0x20#8 := by
  simp [definedOpcodes]

theorem layoutOf_unrecognized {op : Byte} (h : op ∉ definedOpcodes) : layoutOf op = .op (.unrecognized op) := by
  obtain ⟨h1, h2, h3, h4⟩ := not_mem_definedOpcodes.mp h
  unfold layoutOf
  rw [if_neg h1, if_neg h2, if_neg h3, if_neg h4]

/-- The decoder by the format of the opcode byte. -/
theorem decode_cons (op : Byte) (tail : List Byte) :
    decode (op :: tail) =
      match layoutOf op, tail with
      | .op i, rest => .instr i rest
      | .opB mk, b :: rest => .instr (mk b) rest
      | .opW mk, lo :: hi :: rest => .instr (mk (wordOf hi lo)) rest
      | _, _ => .rejected (.missingOperand op) := rfl

end Sys2Proof
end

