-- ==== Sys2Proof/Laws/Ops.lean ====
section
/-! SUPPORT. For each shared operation one lemma that says everything it does; proofs cite these instead of unfolding
the operation. -/

namespace Sys2Proof.Machine

variable (s : State)

/-- A word and the next one are different addresses (R30: the second write never overwrites the first). -/
theorem add_one_ne (a : Word) : a + 1 ≠ a := by bv_omega

theorem State.passByte_spec : s.passByte = { s with pc := s.pc + 1, cyc := s.cyc - 1 } := rfl

theorem State.fetchByte_spec : s.fetchByte = (s.mem.read s.pc, { s with pc := s.pc + 1, cyc := s.cyc - 1 }) := rfl

theorem State.fetchWord_spec :
    s.fetchWord = (wordOf (s.mem.read (s.pc + 1)) (s.mem.read s.pc), { s with pc := s.pc + 2, cyc := s.cyc - 2 }) := by
  have h1 : s.pc + 1#16 + 1#16 = s.pc + 2#16 := by bv_omega
  have h2 : s.cyc - 1 - 1 = s.cyc - 2 := by omega
  simp [State.fetchWord, State.fetchByte, State.passByte_spec, h1, h2]

theorem State.pass_spec (n : Nat) :
    State.pass n s = { s with pc := s.pc + BitVec.ofNat 16 n, cyc := s.cyc - n } := by
  induction n generalizing s with
  | zero => simp [State.pass]
  | succ n ih =>
    have h1 : s.pc + 1#16 + BitVec.ofNat 16 n = s.pc + BitVec.ofNat 16 (n + 1) := by
      rw [BitVec.add_assoc, ← BitVec.ofNat_add, Nat.add_comm 1 n]
    have h2 : s.cyc - 1 - n = s.cyc - (n + 1 : Nat) := by push_cast; omega
    simp [State.pass, State.passByte_spec, ih, h1, h2]

/-- What every meaning begins with: `len` bytes passed, `len` cycles charged, no output. -/
theorem State.begin_spec (len : Nat) :
    s.begin len = { s with pc := s.pc + BitVec.ofNat 16 len, cyc := s.cyc - len, event := none } := by
  simp [State.begin, State.pass_spec, State.output]

/-- The instruction at `PC`, once: one of five cases, each with its opcode byte and its operand bytes (R47, R48). -/
theorem State.fetchInstr_cases :
    (s.mem.read s.pc = 0xA9#8 ∧ s.fetchInstr = .ldaImm (s.mem.read (s.pc + 1))) ∨
    (s.mem.read s.pc = 0xA5#8 ∧ s.fetchInstr = .ldaZp (s.mem.read (s.pc + 1))) ∨
    (s.mem.read s.pc = 0xB5#8 ∧ s.fetchInstr = .ldaZpX (s.mem.read (s.pc + 1))) ∨
    (s.mem.read s.pc = 0x20#8 ∧ s.fetchInstr = .jsr (wordOf (s.mem.read (s.pc + 2)) (s.mem.read (s.pc + 1)))) ∨
    (s.mem.read s.pc ∉ definedOpcodes ∧ s.fetchInstr = .unrecognized (s.mem.read s.pc)) := by
  unfold State.fetchInstr decodeThree
  rcases layoutOf_cases (s.mem.read s.pc) with h | h | h | h | h <;> simp [h.1, h.2]

/-- Every byte of memory after `WriteWord` (R30). -/
theorem State.writeWord_read (w a b : Word) :
    (s.writeWord w a).mem.read b =
      if b = a + 1 then highByte w else if b = a then lowByte w else s.mem.read b := by
  simp [State.writeWord, Memory.read_write]

/-- What `WriteWord` leaves of the rest of the state: two cycles charged, memory written, nothing else (R30). -/
theorem State.writeWord_spec (w a : Word) :
    s.writeWord w a =
      { s with mem := (s.mem.write a (lowByte w)).write (a + 1) (highByte w), cyc := s.cyc - 2 } := by
  have h : s.cyc - 1 - 1 = s.cyc - 2 := by omega
  simp [State.writeWord, State.store, State.charge, h]

theorem State.loadA_spec (v : Byte) :
    s.loadA v = { s with a := v, p := { s.p with z := v == 0, n := v.getLsbD 7 } } := rfl

theorem State.loadAFrom_spec (ea : Word) : s.loadAFrom ea = s.charge.loadA (s.mem.read ea) := rfl

/-- What JSR does after its operand fetch (R79). -/
theorem State.callTo_spec (target : Word) :
    s.callTo target =
      { s with pc := target, sp := s.sp + 1, cyc := s.cyc - 3,
               mem := (s.mem.write s.sp (lowByte (s.pc - 1))).write (s.sp + 1) (highByte (s.pc - 1)) } := by
  have h : s.cyc - 2 - 1 = s.cyc - 3 := by omega
  simp [State.callTo, State.stackAddr, State.writeWord_spec, State.setSp, State.setPc, State.charge, spInc, h]

/-- `Reset` gives the table of R22 and leaves only `cyc` of the state before (R97, R99). -/
theorem State.resetOp_spec : s.resetOp = { State.reset with cyc := s.cyc } := rfl

theorem State.wf_store {s : State} (a : Word) (v : Byte) (h : s.mem.wf) : (s.store a v).mem.wf :=
  Memory.wf_write a v h

theorem State.wf_storeBytes {s : State} (a : Word) (bs : List Byte) (h : s.mem.wf) : (s.storeBytes a bs).mem.wf := by
  induction bs generalizing s a with
  | nil => exact h
  | cons b bs ih => exact ih (a + 1) (State.wf_store a b h)

theorem State.wf_writeWord {s : State} (w a : Word) (h : s.mem.wf) : (s.writeWord w a).mem.wf := by
  rw [State.writeWord_spec]
  exact Memory.wf_write _ _ (Memory.wf_write _ _ h)

end Sys2Proof.Machine
end

