-- ==== Sys2Proof/Laws/PerInstr.lean ====
section
/-! SUPPORT. Statements about every instruction as syntax, one lemma per constructor. -/

namespace Sys2Proof.Laws

/-- The encoding of an instruction has the length that R51 gives it, between one and three bytes
(R43). -/
def EncodedLength.Statement (i : Instr) : Prop :=
  (encode i).length = i.length ∧ 1 ≤ i.length ∧ i.length ≤ 3

theorem EncodedLength.ldaImm (imm8 : Byte) : EncodedLength.Statement (.ldaImm imm8) := by
  simp [EncodedLength.Statement, encode, Instr.length]

theorem EncodedLength.ldaZp (zp8 : Byte) : EncodedLength.Statement (.ldaZp zp8) := by
  simp [EncodedLength.Statement, encode, Instr.length]

theorem EncodedLength.ldaZpX (zp8 : Byte) : EncodedLength.Statement (.ldaZpX zp8) := by
  simp [EncodedLength.Statement, encode, Instr.length]

theorem EncodedLength.jsr (addr16 : Word) : EncodedLength.Statement (.jsr addr16) := by
  simp [EncodedLength.Statement, encode, Instr.length]

theorem EncodedLength.unrecognized (op : Byte) : EncodedLength.Statement (.unrecognized op) := by
  simp [EncodedLength.Statement, encode, Instr.length]

end Sys2Proof.Laws
end

