-- ==== Sys2Proof/Tests/Slice0.lean ====
section
/-! SUPPORT. Tests on small states, their expected values taken from spec/95_test_vectors.md (the vector is named in each
comment) or worked out by hand from the rules, and for every statement with hypotheses a witness that meets them. -/

namespace Sys2Proof.Tests

open Sys2Proof.Machine

/-- The registers of the vectors of part 2, with `bytes` stored from `pc` on. -/
def at_ (pc : Word) (bytes : List Byte) : State :=
  { State.reset with pc := pc, a := 0x55, x := 0x11, y := 0x22, cyc := 10 }.storeBytes pc bytes

/-- Flags in the order `CZIDBVN` of the vectors. -/
def flags (c z i d b v n : Bool) : Flags := { c := c, z := z, i := i, d := d, b := b, v := v, n := n }

/-! ### Well-formedness: the one check refuses each of the four defined opcodes -/

theorem test_defined_opcodes_are_ill_formed_as_unrecognized :
    Instr.wf (.unrecognized 0xA9) = false ∧ Instr.wf (.unrecognized 0xA5) = false ∧
    Instr.wf (.unrecognized 0xB5) = false ∧ Instr.wf (.unrecognized 0x20) = false := by decide

theorem test_other_opcodes_are_well_formed :
    Instr.wf (.unrecognized 0x00) = true ∧ Instr.wf (.unrecognized 0xFF) = true := by decide

/-! ### Decoding: words written out bit by bit from R44 to R47 -/

-- R45: opcode 1010 1001, operand 1000 0100 (95_test_vectors.md S6)
theorem test_decode_lda_immediate : decode [0b10101001, 0b10000100] = .instr (.ldaImm 0x84) [] := by decide

-- R45: opcode 1010 0101, operand 0100 0010
theorem test_decode_lda_zero_page : decode [0b10100101, 0b01000010] = .instr (.ldaZp 0x42) [] := by decide

-- R45: opcode 1011 0101, operand 1111 0000
theorem test_decode_lda_zero_page_x : decode [0b10110101, 0b11110000, 0x07] = .instr (.ldaZpX 0xF0) [0x07] := by decide

-- R46: opcode 0010 0000, low byte 0011 0100, high byte 0001 0010 (V31)
theorem test_decode_jsr : decode [0b00100000, 0b00110100, 0b00010010] = .instr (.jsr 0x1234) [] := by decide

-- V43, V47: the byte after an unrecognized opcode is not consumed
theorem test_decode_unrecognized : decode [0xA8, 0xA9, 0x77] = .instr (.unrecognized 0xA8) [0xA9, 0x77] := by decide

theorem test_decode_rejects_short_lists :
    decode [] = .rejected .noOpcode ∧ decode [0xA9] = .rejected (.missingOperand 0xA9) ∧
    decode [0x20, 0x42] = .rejected (.missingOperand 0x20) := by decide

-- the numbering of opcode_table.json: the second byte is bits 15 to 8
theorem test_decode_table_word :
    decodeTableWord 24 0x123420 = some (.jsr 0x1234) ∧ decodeTableWord 8 0xA9 = some (.ldaImm 0x00) ∧
    decodeTableWord 8 0xFF = some (.unrecognized 0xFF) := by decide

theorem test_reset_runs_a_placed_word :
    (nextOf (step (State.reset.withFetchWord 24 0x424220))).map (fun t => (t.pc, t.sp, t.event)) =
      some (0x4242, 0x0101, none) := by decide

/-! ### One step of each instruction -/

-- V1g: Z cleared from 1, N set, the other five kept
theorem test_lda_immediate_flags :
    (nextOf (step { at_ 0x0200 [0xA9, 0x80] with p := flags true true true true true true false })).map
      (fun t => (t.a, t.p, t.pc, t.cyc, t.event)) =
    some (0x80, flags true false true true true true true, 0x0202, 8, none) := by decide

-- V1j: the operand is past the top of memory
theorem test_lda_immediate_wraps :
    (nextOf (step (at_ 0xFFFF [0xA9, 0x80]))).map (fun t => (t.a, t.p.n, t.pc)) = some (0x80, true, 0x0001) := by decide

-- V2c: the byte is read in page 0, not page 1
theorem test_lda_zero_page_reads_page_zero :
    (nextOf (step (((at_ 0x0200 [0xA5, 0xFF]).store 0x01FF 0xEE)))).map (fun t => (t.a, t.p.z, t.p.n, t.pc, t.cyc)) =
      some (0x00, true, false, 0x0202, 7) := by decide

-- V2e: the instruction reads its own opcode
theorem test_lda_zero_page_reads_itself :
    (nextOf (step (at_ 0x0010 [0xA5, 0x10]))).map (fun t => (t.a, t.p.n, t.pc)) = some (0xA5, true, 0x0012) := by decide

-- V11: 0xF0 + 0x20 wraps to 0x10, never 0x110; C stays
theorem test_lda_zero_page_x_wraps :
    (nextOf (step (({ at_ 0x0200 [0xB5, 0xF0] with x := 0x20 }.store 0x0010 0xEA).store 0x0110 0x11))).map
      (fun t => (t.a, t.p, t.x, t.cyc)) =
    some (0xEA, flags false false false false false false true, 0x20, 6) := by decide

-- V18: Y is not an index
theorem test_lda_zero_page_x_ignores_y :
    (nextOf (step (({ at_ 0x0200 [0xB5, 0x40] with x := 0x00, y := 0x05 }.store 0x0040 0x34).store 0x0045 0x12))).map
      (fun t => (t.a, t.pc, t.cyc)) = some (0x34, 0x0202, 6) := by decide

-- V32: the push lands on the JSR's own operand bytes, after they were fetched
theorem test_jsr_over_its_own_operands :
    (nextOf (step { at_ 0x0200 [0x20, 0x34, 0x12] with sp := 0x0201 })).map
      (fun t => (t.pc, t.sp, t.mem.read 0x0201, t.mem.read 0x0202, t.cyc)) =
    some (0x1234, 0x0202, 0x02, 0x02, 4) := by decide

-- V37: the push straddles the top of memory
theorem test_jsr_push_wraps :
    (nextOf (step { at_ 0x0300 [0x20, 0x34, 0x12] with sp := 0xFFFF })).map
      (fun t => (t.pc, t.sp, t.mem.read 0xFFFF, t.mem.read 0x0000)) = some (0x1234, 0x0000, 0x02, 0x03) := by decide

-- V43: a neighbour of A9; the registers of the vector stay
theorem test_unrecognized_goes_on :
    (nextOf (step { at_ 0x0300 [0xA8, 0xA9, 0x77] with sp := 0x0123, p := flags true false true false true false true })).map
      (fun t => ((t.pc, t.sp, t.a), t.p, t.cyc, t.event)) =
    some ((0x0301, 0x0123, 0x55), flags true false true false true false true, 9, some (.unrecognized 0xA8)) := by decide

-- V40 and R81 corner (c): the byte of cleared memory, at the top of memory
theorem test_unrecognized_wraps :
    (nextOf (step (at_ 0xFFFF []))).map (fun t => (t.pc, t.cyc, t.event)) =
      some (0x0000, 9, some (.unrecognized 0x00)) := by decide

/-! ### Memory, Execute, host -/

-- V23: WriteWord across the top of memory
theorem test_writeWord_wraps :
    let t := State.reset.writeWord 0xABCD 0xFFFF
    t.mem = [(0, 0xAB), (65535, 0xCD)] ∧ t.cyc = -2 := by decide

-- V24: writing 0x00 removes the cells
theorem test_write_zero_removes_cells :
    ((((at_ 0x0100 [0x11, 0x22]).writeWord 0x0000 0x0100).mem) : Memory) = [] := by decide

-- V64: the largest overshoot
theorem test_execute_overshoots :
    (nextOf (execute 1 (State.reset.storeBytes 0xFFFC [0x20, 0x42, 0x42]))).map
      (fun r => ((r.final.pc, r.final.sp), r.final.mem.readWord 0x0100, r.final.cyc, r.events)) =
    some ((0x4242, 0x0101), 0xFFFE, -5, []) := by decide

-- V63: a negative budget
theorem test_execute_negative_budget :
    (nextOf (execute (-3) State.reset)).map (fun r => (r.final.pc, r.final.cyc, r.events)) =
      some (0xFFFC, -3, []) := by decide

/-! ### Witnesses: for each statement with hypotheses, data that meets them (for each clause) -/

theorem witness_DecodeOfEncodeIsTheInstruction : Instr.wf (.jsr 0xFFFF) = true ∧ Instr.wf (.unrecognized 0xA8) = true := by
  decide

theorem witness_DecodedInstructionEncodesToItsBytes : decode [0x20, 0xFF, 0x00, 0x01] = .instr (.jsr 0x00FF) [0x01] := by
  decide

theorem witness_FormatsDecode :
    ((0xA8 : Byte) ≠ 0xA9 ∧ (0xA8 : Byte) ≠ 0xA5 ∧ (0xA8 : Byte) ≠ 0xB5 ∧ (0xA8 : Byte) ≠ 0x20) ∧
    (at_ 0xFFFF [0xA9]).fetchByte.1 = 0xA9 ∧ (at_ 0xFFFF [0xA5]).fetchByte.1 = 0xA5 ∧
    (at_ 0xFFFF [0xB5]).fetchByte.1 = 0xB5 ∧ (at_ 0xFFFF [0x20]).fetchByte.1 = 0x20 := by decide

/-- A state at each kind of opcode byte, at the top of memory, and one with other registers but the same `PC` and memory. -/
theorem witness_opcode_bytes :
    (at_ 0xFFFF [0xA9]).mem.read 0xFFFF = 0xA9 ∧ (at_ 0xFFFF [0xA5]).mem.read 0xFFFF = 0xA5 ∧
    (at_ 0xFFFF [0xB5]).mem.read 0xFFFF = 0xB5 ∧ (at_ 0xFFFF [0x20]).mem.read 0xFFFF = 0x20 ∧
    (at_ 0xFFFF []).mem.read 0xFFFF ∉ definedOpcodes := by decide

theorem witness_OpcodeByteSelectsTheInstruction :
    ((at_ 0xFFFF [0xA9]).mem.read (at_ 0xFFFF [0xA9]).pc = 0xA9) ∧
    { at_ 0xFFFF [0xA9] with a := 0 }.pc = (at_ 0xFFFF [0xA9]).pc ∧
    { at_ 0xFFFF [0xA9] with a := 0 }.mem = (at_ 0xFFFF [0xA9]).mem := by decide

theorem witness_LengthIsAFunctionOfTheOpcode :
    decode [0xA9, 0x01, 0x02] = .instr (.ldaImm 0x01) [0x02] ∧ decode [0x20, 0x01, 0x02] = .instr (.jsr 0x0201) [] ∧
    decode [0x21] = .instr (.unrecognized 0x21) [] := by decide

theorem witness_StepRunsTheDecodedInstruction :
    let s := at_ 0xFFFE [0x20, 0x34, 0x12]
    decode [s.mem.read s.pc, s.mem.read (s.pc + 1), s.mem.read (s.pc + 2)] = .instr (.jsr 0x1234) [] := by decide

theorem witness_UnrecognizedEventIffOpcodeUndefined : (at_ 0x0300 [0xA8]).mem.read (at_ 0x0300 [0xA8]).pc ∉ definedOpcodes := by
  decide

theorem witness_LdaImmediateResult :
    let s := at_ 0xFFFF [0xA9, 0x80]
    s.mem.read s.pc = 0xA9 ∧ s.mem.read (s.pc + 1) = 0x80 := by decide

theorem witness_LdaZeroPageResult :
    let s := (at_ 0x0200 [0xA5, 0xFF]).store 0x00FF 0x7F
    (0x7F : Byte) = s.mem.read (BitVec.ofNat 16 (0xFF : Byte).toNat) ∧ s.mem.read s.pc = 0xA5 ∧
    s.mem.read (s.pc + 1) = 0xFF := by decide

theorem witness_LdaZeroPageXResult :
    let s := { at_ 0x0200 [0xB5, 0xFF] with x := 0xFF }.store 0x00FE 0x80
    (0x80 : Byte) = s.mem.read (BitVec.ofNat 16 (((0xFF : Byte).toNat + s.x.toNat) % 256)) ∧ s.mem.read s.pc = 0xB5 ∧
    s.mem.read (s.pc + 1) = 0xFF := by decide

theorem witness_JsrResult :
    let s := at_ 0xFFFF [0x20, 0x34, 0x12]
    s.mem.read s.pc = 0x20 ∧ wordOf (s.mem.read (s.pc + 2)) (s.mem.read (s.pc + 1)) = 0x1234 ∧
    (s.begin 3).stackAddr = 0x0100 ∧ (0x00FF : Word) ≠ 0x0100 ∧ (0x00FF : Word) ≠ 0x0100 + 1 := by decide

theorem witness_UnrecognizedResult : (0x21 : Byte) ∉ definedOpcodes ∧ (at_ 0x0300 [0x21]).mem.read (at_ 0x0300 [0x21]).pc = 0x21 := by
  decide

/-- The bytes at the borders of the three rows of R74's table: 0x00; 0x01 and 0x7F; 0x80 and 0xFF. -/
theorem witness_LdaFlagLaw :
    isLda (.ldaImm 0x00) = true ∧ isLda (.ldaZp 0x10) = true ∧ isLda (.ldaZpX 0x10) = true ∧
    (nextOf (exec (.ldaImm 0x00) State.reset)).map (fun t => t.a) = some 0x00 ∧
    (nextOf (exec (.ldaImm 0x01) State.reset)).map (fun t => t.a.toNat) = some 0x01 ∧
    (nextOf (exec (.ldaImm 0x7F) State.reset)).map (fun t => t.a.toNat) = some 0x7F ∧
    (nextOf (exec (.ldaImm 0x80) State.reset)).map (fun t => t.a.toNat) = some 0x80 ∧
    (nextOf (exec (.ldaImm 0xFF) State.reset)).map (fun t => t.a.toNat) = some 0xFF := by decide

theorem witness_LdaFrame :
    isLda (.ldaZpX 0x40) = true ∧ (nextOf (exec (.ldaZpX 0x40) (at_ 0x0200 [0xB5, 0x40]))).isSome = true := by decide

theorem witness_JsrFrame :
    (nextOf (exec (.jsr 0x1234) (at_ 0x0200 [0x20, 0x34, 0x12]))).isSome = true ∧
    ((at_ 0x0200 [0x20, 0x34, 0x12]).begin 3).stackAddr = 0x0100 ∧
    (0x0102 : Word) ≠ 0x0100 ∧ (0x0102 : Word) ≠ 0x0100 + 1 := by decide

theorem witness_UnrecognizedFrame : (nextOf (exec (.unrecognized 0xFF) (at_ 0x0200 [0xFF]))).isSome = true := by decide

theorem witness_OnlyJsrWritesMemory :
    (at_ 0x0200 [0xA9, 0x01]).mem.read (at_ 0x0200 [0xA9, 0x01]).pc ≠ 0x20 ∧
    ((0x0102 : Word) ≠ (at_ 0x0200 [0x20]).sp ∧ (0x0102 : Word) ≠ (at_ 0x0200 [0x20]).sp + 1) := by decide

theorem witness_XIsReadByZeroPageXOnly : (at_ 0x0200 [0xA5, 0x01]).mem.read (at_ 0x0200 [0xA5, 0x01]).pc ≠ 0xB5 := by decide

theorem witness_WriteWordChangesTwoBytes : (0x0001 : Word) ≠ 0xFFFF ∧ (0x0001 : Word) ≠ 0xFFFF + 1 := by decide

theorem witness_CanonicalMemoriesThatReadAlikeAreEqual :
    Memory.wf [(0, 0xAB), (65535, 0xCD)] ∧ ((Memory.cleared.write 0xFFFF 0xCD).write 0x0000 0xAB).wf ∧
    (Memory.cleared.write 0xFFFF 0xCD).write 0x0000 0xAB = [(0, 0xAB), (65535, 0xCD)] := by decide

/-- V33 (the target is the cell at `SP`), and a target at the cell after it. -/
theorem witness_JsrFetchesBeforeItWrites :
    (at_ 0x0400 [0x20, 0x00, 0x01]).mem.read (at_ 0x0400 [0x20, 0x00, 0x01]).pc = 0x20 ∧
    (nextOf (step (at_ 0x0400 [0x20, 0x00, 0x01]))).map (fun t => t.pc) = some (at_ 0x0400 [0x20, 0x00, 0x01]).sp ∧
    (nextOf (step (at_ 0x0400 [0x20, 0x01, 0x01]))).map (fun t => t.pc) = some ((at_ 0x0400 [0x20, 0x01, 0x01]).sp + 1) := by
  decide

theorem witness_ChainedJsrsOverlapOnTheStack :
    0 < ([0x1000, 0x2000] : List Word).length ∧ ([0x1000, 0x2000] : List Word).length < 65536 ∧
    0 < ([0x1000] : List Word).length ∧ (List.replicate 65535 (0 : Word)).length < 65536 := by
  refine ⟨by decide, by decide, by decide, ?_⟩
  rw [List.length_replicate]
  decide

theorem witness_StepKeepsMemoryCanonical :
    (at_ 0x0200 [0x20, 0x34, 0x12]).Inv ∧ (nextOf (step (at_ 0x0200 [0x20, 0x34, 0x12]))).isSome = true := by decide

theorem witness_HostOperationsKeepTheFlow :
    Block.FlowInv .unreset ∧ Block.FlowInv (.ready State.reset) ∧
    (nextOf (hostStep .unreset .reset)).isSome = true ∧ (nextOf (hostStep (.ready State.reset) .reset)).isSome = true ∧
    (nextOf (hostStep (.ready State.reset) (.write 0xFFFC 0xA9))).isSome = true ∧
    (nextOf (hostStep (.ready State.reset) (.execute 1))).isSome = true := by decide

theorem witness_FirstOpcodeIsAtResetPc :
    let m := (Memory.cleared.write 0xFFFC 0xA9).write 0xFFFD 0x84
    decode [m.read 0xFFFC, m.read 0xFFFD, m.read 0xFFFE] = .instr (.ldaImm 0x84) [0x00] := by decide

theorem witness_NothingButResetBeforeTheFirstReset :
    (nextOf (hostStep .unreset .reset)).isSome = true ∧ HostCommand.execute 1 ≠ .reset ∧ HostCommand.write 0 0 ≠ .reset := by
  decide

theorem witness_ExecuteIsTheWhileLoop : ¬ (0 : Int) < 0 ∧ (0 : Int) < 1 := by decide

theorem witness_ExecuteOvershootsByAtMostFive : (1 : Int) ≤ 1 := by decide

theorem witness_ExecuteIsABoundedRunOfSteps :
    (0 : Int) ≤ 0 ∧ (0 : Int) < 1 ∧
    nextOf (execute 1 State.reset) = nextOf (runSteps 1 { State.reset with cyc := 1 } []) ∧ 0 < 1 := by decide

theorem witness_ExecuteComposes : (0 : Int) ≤ 0 ∧ (nextOf (execute (-1) State.reset)).isSome = true := by decide

/-- From reset: no step costs nothing, the first step (an unrecognized 0x00) costs 1, so a budget of 1 ends after it. -/
theorem witness_BudgetDecidesWhereExecuteStops :
    (nextOf (runSteps 0 { State.reset with cyc := 0 } [])).map (fun q => -q.final.cyc) = some 0 ∧
    (nextOf (runSteps (0 + 1) { State.reset with cyc := 0 } [])).map (fun q => -q.final.cyc) = some 1 ∧
    (0 : Int) < 1 ∧ (1 : Int) ≤ 1 := by decide

theorem witness_EventsNameUndefinedOpcodes :
    (nextOf (execute 1 State.reset)).map (fun r => r.events) = some [.unrecognized 0x00] := by decide

end Sys2Proof.Tests
end

section
/-! Proofs about the pieces of state (spec 10_state.md): what one step reads and writes, and what Reset leaves. -/

namespace Sys2Proof.Machine

/-! ### The next state of each instruction -/

section
variable (s : State)

/-- R75. -/
theorem exec_ldaImm_spec (imm8 : Byte) :
    exec (.ldaImm imm8) s = .next (State.loadA { s with pc := s.pc + 2, cyc := s.cyc - 2, event := none } imm8) := by
  simp [exec, execLdaImm, State.begin_spec]

/-- R76. -/
theorem exec_ldaZp_spec (zp8 : Byte) :
    exec (.ldaZp zp8) s =
      .next (State.loadA { s with pc := s.pc + 2, cyc := s.cyc - 3, event := none }
        (s.mem.read (zeroPageAddr zp8))) := by
  have hcyc : s.cyc - 2 - 1 = s.cyc - 3 := by omega
  simp [exec, execLdaZp, State.begin_spec, State.loadAFrom_spec, State.charge, hcyc]

/-- R77. -/
theorem exec_ldaZpX_spec (zp8 : Byte) :
    exec (.ldaZpX zp8) s =
      .next (State.loadA { s with pc := s.pc + 2, cyc := s.cyc - 4, event := none }
        (s.mem.read (zeroPageXAddr zp8 s.x))) := by
  have hcyc : s.cyc - 2 - 1 - 1 = s.cyc - 4 := by omega
  simp [exec, execLdaZpX, State.begin_spec, State.indexZeroPageX, State.loadAFrom_spec, State.charge, hcyc]

/-- R79: the pushed word is the address of the last byte of the JSR, `PC + 2`. -/
theorem exec_jsr_spec (addr16 : Word) :
    exec (.jsr addr16) s =
      .next { s with
        pc := addr16, sp := s.sp + 1, cyc := s.cyc - 6, event := none,
        mem := (s.mem.write s.sp (lowByte (s.pc + 2))).write (s.sp + 1) (highByte (s.pc + 2)) } := by
  have hret : s.pc + 3#16 - 1#16 = s.pc + 2#16 := by bv_omega
  have hcyc : s.cyc - 3 - 3 = s.cyc - 6 := by omega
  simp [exec, execJsr, State.begin_spec, State.callTo_spec, hret, hcyc]

/-- R81. -/
theorem exec_unrecognized_spec (op : Byte) :
    exec (.unrecognized op) s =
      .next { s with pc := s.pc + 1, cyc := s.cyc - 1, event := some (.unrecognized op) } := by
  simp [exec, execUnrecognized, State.begin_spec, State.emitUnrecognized, State.output]

end

/-! ### What an instruction reads and writes

Each lemma fixes, from one state, everything the instruction puts into the next state, and then says that every state
that agrees with it on the listed inputs gets just that. A noninterference statement takes it at each of its two start
states. -/

/-- An LDA reads memory and `X`, and writes `A`, `Z`, `N` beside `PC`, the counter and the event. -/
theorem exec_lda_writes {i : Instr} (hi : isLda i = true) (s : State) :
    ∃ (v : Byte) (n : Int), ∀ s' : State, s'.mem = s.mem → s'.x = s.x →
      exec i s' = .next (State.loadA { s' with pc := s'.pc + 2, cyc := s'.cyc - n, event := none } v) := by
  cases i with
  | ldaImm imm8 => exact ⟨imm8, 2, fun s' _ _ => exec_ldaImm_spec s' imm8⟩
  | ldaZp zp8 =>
    exact ⟨s.mem.read (zeroPageAddr zp8), 3, fun s' hmem _ => by rw [exec_ldaZp_spec, hmem]⟩
  | ldaZpX zp8 =>
    exact ⟨s.mem.read (zeroPageXAddr zp8 s.x), 4, fun s' hmem hx => by rw [exec_ldaZpX_spec, hmem, hx]⟩
  | jsr | unrecognized => cases hi

/-- JSR and the unrecognized opcodes read `PC`, `SP` and memory, and write those beside the counter and the event. -/
theorem exec_nonLda_writes {i : Instr} (hi : isLda i = false) (s : State) :
    ∃ (pc sp : Word) (mem : Memory) (n : Int) (e : Option Event),
      ∀ s' : State, s'.pc = s.pc → s'.sp = s.sp → s'.mem = s.mem →
        exec i s' = .next { s' with pc := pc, sp := sp, mem := mem, cyc := s'.cyc - n, event := e } := by
  cases i with
  | ldaImm | ldaZp | ldaZpX => cases hi
  | jsr addr16 =>
    refine ⟨addr16, s.sp + 1, (s.mem.write s.sp (lowByte (s.pc + 2))).write (s.sp + 1) (highByte (s.pc + 2)), 6, none,
      fun s' hpc hsp hmem => ?_⟩
    rw [exec_jsr_spec, hpc, hsp, hmem]
  | unrecognized op =>
    refine ⟨s.pc + 1, s.sp, s.mem, 1, some (.unrecognized op), fun s' hpc hsp hmem => ?_⟩
    rw [exec_unrecognized_spec, ← hpc, ← hsp, ← hmem]

/-! ### What a step reads and writes -/

/-- Which instruction is at `PC` depends on `PC` and memory alone (R48). -/
theorem State.fetchInstr_congr {s s' : State} (hpc : s'.pc = s.pc) (hmem : s'.mem = s.mem) :
    s'.fetchInstr = s.fetchInstr := by
  rw [State.fetchInstr, State.fetchInstr, hpc, hmem]

/-- The instruction at `PC` is an LDA exactly at the three LDA opcodes (R16, R48). -/
theorem State.isLda_fetchInstr (s : State) :
    isLda s.fetchInstr = true ↔
      s.mem.read s.pc = 0xA9 ∨ s.mem.read s.pc = 0xA5 ∨ s.mem.read s.pc = 0xB5 := by
  rcases s.fetchInstr_cases with ⟨hop, hi⟩ | ⟨hop, hi⟩ | ⟨hop, hi⟩ | ⟨hop, hi⟩ | ⟨hop, hi⟩
  · simp [hop, hi, isLda]
  · simp [hop, hi, isLda]
  · simp [hop, hi, isLda]
  · simp [hop, hi, isLda]
  · obtain ⟨hA9, hA5, hB5, -⟩ := not_mem_definedOpcodes.mp hop
    simp [hi, isLda, hA9, hA5, hB5]

/-- `exec_lda_writes` for the step at an LDA opcode. -/
theorem step_lda_writes {s : State}
    (h : s.mem.read s.pc = 0xA9 ∨ s.mem.read s.pc = 0xA5 ∨ s.mem.read s.pc = 0xB5) :
    ∃ (v : Byte) (n : Int), ∀ s' : State, s'.pc = s.pc → s'.mem = s.mem → s'.x = s.x →
      step s' = .next (State.loadA { s' with pc := s'.pc + 2, cyc := s'.cyc - n, event := none } v) := by
  obtain ⟨v, n, hexec⟩ := exec_lda_writes (s.isLda_fetchInstr.mpr h) s
  refine ⟨v, n, fun s' hpc hmem hx => ?_⟩
  rw [step, State.fetchInstr_congr hpc hmem, hexec s' hmem hx]

/-- `exec_nonLda_writes` for the step at any other opcode. -/
theorem step_nonLda_writes {s : State}
    (h : ¬(s.mem.read s.pc = 0xA9 ∨ s.mem.read s.pc = 0xA5 ∨ s.mem.read s.pc = 0xB5)) :
    ∃ (pc sp : Word) (mem : Memory) (n : Int) (e : Option Event),
      ∀ s' : State, s'.pc = s.pc → s'.sp = s.sp → s'.mem = s.mem →
        step s' = .next { s' with pc := pc, sp := sp, mem := mem, cyc := s'.cyc - n, event := e } := by
  have hi : isLda s.fetchInstr = false := Bool.eq_false_iff.mpr (mt s.isLda_fetchInstr.mp h)
  obtain ⟨pc, sp, mem, n, e, hexec⟩ := exec_nonLda_writes hi s
  refine ⟨pc, sp, mem, n, e, fun s' hpc hsp hmem => ?_⟩
  rw [step, State.fetchInstr_congr hpc hmem, hexec s' hpc hsp hmem]

/-! ### The obligations -/

/-- Settles O22: the five flags are no input of a step at an LDA opcode or at any other, and pass through it. -/
theorem unusedFlagsAreNeitherReadNorWritten : Obligations.UnusedFlagsAreNeitherReadNorWritten := by
  intro s c i d b v
  by_cases h : s.mem.read s.pc = 0xA9 ∨ s.mem.read s.pc = 0xA5 ∨ s.mem.read s.pc = 0xB5
  · obtain ⟨_, _, hstep⟩ := step_lda_writes h
    exact ⟨_, hstep s rfl rfl rfl, rfl, hstep _ rfl rfl rfl, rfl⟩
  · obtain ⟨_, _, _, _, _, hstep⟩ := step_nonLda_writes h
    exact ⟨_, hstep s rfl rfl rfl, rfl, hstep _ rfl rfl rfl, rfl⟩

/-- Settles O23: at an LDA both runs load the same byte and take `Z` and `N` from it; elsewhere the flags pass
through. -/
theorem zAndNAreWrittenByLdaAndReadByNone : Obligations.ZAndNAreWrittenByLdaAndReadByNone := by
  intro s z n
  split
  next h =>
    obtain ⟨_, _, hstep⟩ := step_lda_writes h
    exact ⟨_, hstep s rfl rfl rfl, rfl, rfl, hstep _ rfl rfl rfl⟩
  next h =>
    obtain ⟨_, _, _, _, _, hstep⟩ := step_nonLda_writes h
    exact ⟨_, hstep s rfl rfl rfl, rfl, hstep _ rfl rfl rfl⟩

/-- Settles O24: `Y` is no input of a step at an LDA opcode or at any other, and passes through it. -/
theorem yIsNeitherReadNorWritten : Obligations.YIsNeitherReadNorWritten := by
  intro s y
  by_cases h : s.mem.read s.pc = 0xA9 ∨ s.mem.read s.pc = 0xA5 ∨ s.mem.read s.pc = 0xB5
  · obtain ⟨_, _, hstep⟩ := step_lda_writes h
    exact ⟨_, hstep s rfl rfl rfl, rfl, hstep _ rfl rfl rfl, rfl⟩
  · obtain ⟨_, _, _, _, _, hstep⟩ := step_nonLda_writes h
    exact ⟨_, hstep s rfl rfl rfl, rfl, hstep _ rfl rfl rfl, rfl⟩

/-- Settles O25: at an LDA both runs overwrite `A` with the same byte; elsewhere `A` passes through. -/
theorem accumulatorIsWrittenByLdaOnly : Obligations.AccumulatorIsWrittenByLdaOnly := by
  intro s a
  split
  next h =>
    obtain ⟨_, _, hstep⟩ := step_lda_writes h
    exact ⟨_, hstep s rfl rfl rfl, hstep _ rfl rfl rfl, rfl⟩
  next h =>
    obtain ⟨_, _, _, _, _, hstep⟩ := step_nonLda_writes h
    exact ⟨_, hstep s rfl rfl rfl, ⟨rfl, hstep _ rfl rfl rfl⟩, rfl⟩

/-- The state after the first Reset has R22's values. -/
theorem State.reset_meetsResetTable : State.reset.MeetsResetTable :=
  ⟨rfl, rfl, rfl, rfl, rfl, rfl, Memory.read_cleared⟩

/-- So has the state after any Reset: it differs from that one in the counter alone (R97, R99). -/
theorem State.resetOp_meetsResetTable (s : State) : s.resetOp.MeetsResetTable := by
  rw [State.resetOp_spec]
  exact State.reset_meetsResetTable

/-- Settles O39, from the table of the two Resets of the model. -/
theorem resetTable : Obligations.ResetTable :=
  ⟨fun s => ⟨s.resetOp_meetsResetTable, rfl⟩,
   fun s => ⟨s.resetOp, rfl, s.resetOp_meetsResetTable, rfl⟩,
   ⟨State.reset, rfl, State.reset_meetsResetTable⟩,
   State.reset_meetsResetTable⟩

end Sys2Proof.Machine
end

section
/-! Proofs about the byte order of words in memory (spec 20_memory.md). -/

namespace Sys2Proof.Machine

/-! ### A word just written, read back -/

section
variable (s : State) (w a : Word)

/-- R33, the low byte: the write of the high byte at `a + 1` leaves the cell at `a` alone. -/
theorem State.writeWord_read_low : (s.writeWord w a).mem.read a = lowByte w := by
  rw [State.writeWord_read, if_neg (add_one_ne a).symm, if_pos rfl]

/-- R33, the high byte. -/
theorem State.writeWord_read_high : (s.writeWord w a).mem.read (a + 1) = highByte w := by
  rw [State.writeWord_read, if_pos rfl]

/-- A word read (R32) undoes a word write (R30). -/
theorem State.writeWord_readWord : (s.writeWord w a).mem.readWord a = w := by
  rw [Memory.readWord, State.writeWord_read_low, State.writeWord_read_high, wordOf_high_low]

end

/-- `FetchWord` gives the word that a word read at `PC` gives: instruction fetch and data share one byte order
(R32, R56). -/
theorem State.fetchWord_fst (s : State) : s.fetchWord.1 = s.mem.readWord s.pc := by
  rw [State.fetchWord_spec, Memory.readWord]

/-! ### The obligation -/

/-- Settles O31: the two bytes are the halves of `w`, and both word reads put them together again. -/
theorem wordsAreLittleEndian : Obligations.WordsAreLittleEndian := by
  intro s w a
  refine ⟨?_, ?_, s.writeWord_readWord w a, ?_⟩
  · rw [State.writeWord_read_low, lowByte_toNat]
  · rw [State.writeWord_read_high, highByte_toNat]
  · rw [State.fetchWord_fst, State.setPc_mem, State.setPc_pc, State.writeWord_readWord]

end Sys2Proof.Machine
end

section
/-! Proofs about the instruction formats and the opcode map (spec 30_encoding.md R44 to R48). -/

namespace Sys2Proof

/-! ### The decoder on a list, by opcode byte -/

section
variable (rest : List Byte)

@[simp] theorem decode_ldaImm (imm8 : Byte) : decode (0xA9#8 :: imm8 :: rest) = .instr (.ldaImm imm8) rest := rfl

@[simp] theorem decode_ldaZp (zp8 : Byte) : decode (0xA5#8 :: zp8 :: rest) = .instr (.ldaZp zp8) rest := rfl

@[simp] theorem decode_ldaZpX (zp8 : Byte) : decode (0xB5#8 :: zp8 :: rest) = .instr (.ldaZpX zp8) rest := rfl

@[simp] theorem decode_jsr (lo hi : Byte) : decode (0x20#8 :: lo :: hi :: rest) = .instr (.jsr (wordOf hi lo)) rest := rfl

theorem decode_unrecognized {op : Byte} (h : op ∉ definedOpcodes) :
    decode (op :: rest) = .instr (.unrecognized op) rest := by
  rw [decode_cons, layoutOf_unrecognized h]

end

end Sys2Proof

namespace Sys2Proof.Machine

/-! ### The instruction in memory, by opcode byte -/

section
variable {s : State}

theorem State.fetchInstr_ldaImm (h : s.mem.read s.pc = 0xA9) : s.fetchInstr = .ldaImm (s.mem.read (s.pc + 1)) := by
  rw [State.fetchInstr, h]
  rfl

theorem State.fetchInstr_ldaZp (h : s.mem.read s.pc = 0xA5) : s.fetchInstr = .ldaZp (s.mem.read (s.pc + 1)) := by
  rw [State.fetchInstr, h]
  rfl

theorem State.fetchInstr_ldaZpX (h : s.mem.read s.pc = 0xB5) : s.fetchInstr = .ldaZpX (s.mem.read (s.pc + 1)) := by
  rw [State.fetchInstr, h]
  rfl

theorem State.fetchInstr_jsr (h : s.mem.read s.pc = 0x20) : s.fetchInstr = .jsr (s.mem.readWord (s.pc + 1)) := by
  have hpc : s.pc + 1 + 1 = s.pc + 2 := by bv_omega
  rw [State.fetchInstr, h, Memory.readWord, hpc]
  rfl

theorem State.fetchInstr_unrecognized (h : s.mem.read s.pc ∉ definedOpcodes) :
    s.fetchInstr = .unrecognized (s.mem.read s.pc) := by
  rw [State.fetchInstr, decodeThree, layoutOf_unrecognized h]

end

/-! ### The operand that the primitives fetch after the opcode byte -/

section
variable (s : State)

theorem State.fetchByte_fetchByte_fst : s.fetchByte.2.fetchByte.1 = s.mem.read (s.pc + 1) := rfl

theorem State.fetchByte_fetchWord_fst : s.fetchByte.2.fetchWord.1 = s.mem.readWord (s.pc + 1) := by
  rw [State.fetchWord_fst, State.fetchByte_spec]

end

/-! ### The obligations -/

/-- Settles O3: the formats on a list, then the operand in memory, opcode by opcode. -/
theorem formatsDecode : Obligations.FormatsDecode := by
  refine ⟨fun op b lo hi rest => ?_, fun s => ⟨fun h => ?_, fun h => ?_, fun h => ?_, fun h => ?_⟩⟩
  · have haddr : (wordOf hi lo).toNat = lo.toNat + 256 * hi.toNat := by
      rw [wordOf_toNat]
      omega
    exact ⟨decode_ldaImm rest b, decode_ldaZp rest b, decode_ldaZpX rest b,
      ⟨wordOf hi lo, decode_jsr rest lo hi, haddr⟩,
      fun hA9 hA5 hB5 h20 => decode_unrecognized rest (not_mem_definedOpcodes.mpr ⟨hA9, hA5, hB5, h20⟩)⟩
  · rw [State.fetchByte_fetchByte_fst, State.fetchInstr_ldaImm h]
  · rw [State.fetchByte_fetchByte_fst, State.fetchInstr_ldaZp h]
  · rw [State.fetchByte_fetchByte_fst, State.fetchInstr_ldaZpX h]
  · rw [State.fetchByte_fetchWord_fst, State.fetchInstr_jsr h]

/-- Settles O4, one clause for each opcode class, and `fetchInstr_congr` for the registers, flags and counter. -/
theorem opcodeByteSelectsTheInstruction : Obligations.OpcodeByteSelectsTheInstruction := fun s =>
  ⟨fun h => ⟨s.mem.read (s.pc + 1), State.fetchInstr_ldaImm h⟩,
   fun h => ⟨s.mem.read (s.pc + 1), State.fetchInstr_ldaZp h⟩,
   fun h => ⟨s.mem.read (s.pc + 1), State.fetchInstr_ldaZpX h⟩,
   fun h => ⟨s.mem.readWord (s.pc + 1), State.fetchInstr_jsr h⟩,
   fun hA9 hA5 hB5 h20 => State.fetchInstr_unrecognized (not_mem_definedOpcodes.mpr ⟨hA9, hA5, hB5, h20⟩),
   fun _ hpc hmem => State.fetchInstr_congr hpc hmem⟩

end Sys2Proof.Machine
end

section
/-! Proofs about one step's charge and the run loop (spec 40_fetch_execute_loop.md R59 to R63). -/

namespace Sys2Proof.Machine

/-! ### What a step does to the counter -/

/-- Every instruction charges its cycles of R65 whatever the counter is, and the rest of the next state, `t`, is the
same for every counter. -/
theorem exec_charges (i : Instr) (s : State) :
    ∃ t : State, ∀ cyc : Int, exec i { s with cyc := cyc } = .next { t with cyc := cyc - cyclesOf i } := by
  cases i with
  | ldaImm imm8 =>
    exact ⟨State.loadA { s with pc := s.pc + 2, event := none } imm8, fun cyc => exec_ldaImm_spec _ imm8⟩
  | ldaZp zp8 =>
    exact ⟨State.loadA { s with pc := s.pc + 2, event := none } (s.mem.read (zeroPageAddr zp8)),
      fun cyc => exec_ldaZp_spec _ zp8⟩
  | ldaZpX zp8 =>
    exact ⟨State.loadA { s with pc := s.pc + 2, event := none } (s.mem.read (zeroPageXAddr zp8 s.x)),
      fun cyc => exec_ldaZpX_spec _ zp8⟩
  | jsr addr16 =>
    exact ⟨{ s with
        pc := addr16, sp := s.sp + 1, event := none,
        mem := (s.mem.write s.sp (lowByte (s.pc + 2))).write (s.sp + 1) (highByte (s.pc + 2)) },
      fun cyc => exec_jsr_spec _ addr16⟩
  | unrecognized op =>
    exact ⟨{ s with pc := s.pc + 1, event := some (.unrecognized op) }, fun cyc => exec_unrecognized_spec _ op⟩

/-- `exec_charges` for a step: which instruction is at `PC` does not depend on the counter. -/
theorem step_charges (s : State) :
    ∃ t : State, ∀ cyc : Int,
      step { s with cyc := cyc } = .next { t with cyc := cyc - cyclesOf s.fetchInstr } :=
  exec_charges s.fetchInstr s

/-- R63: no instruction is free. -/
theorem one_le_cyclesOf (i : Instr) : 1 ≤ cyclesOf i := by
  cases i <;> simp [cyclesOf]

/-- Every step answers a next state, with a smaller counter (R63). -/
theorem exists_step_cyc_lt (s : State) : ∃ t, step s = .next t ∧ t.cyc < s.cyc := by
  obtain ⟨t, hstep⟩ := step_charges s
  have hcost := one_le_cyclesOf s.fetchInstr
  exact ⟨_, hstep s.cyc, by simp only; omega⟩

theorem step_cyc_lt {s t : State} (h : step s = .next t) : t.cyc < s.cyc := by
  obtain ⟨t', ht', hlt⟩ := exists_step_cyc_lt s
  cases h.symm.trans ht'
  exact hlt

/-! ### The while loop without fuel -/

/-- The loop of R60 as its pseudocode has it, the counter's value at the start being that of the state: `r` is what it
leaves. `RunsTo.runLoop_eq` ties it to the model's loop. -/
inductive RunsTo : State → RunResult → Prop where
  | stop {s : State} (hcyc : ¬ 0 < s.cyc) : RunsTo s { final := s, events := [] }
  | pass {s t : State} {r : RunResult} (hcyc : 0 < s.cyc) (hstep : step s = .next t) (hrest : RunsTo t r) :
      RunsTo s { final := r.final, events := t.event.toList ++ r.events }

theorem runLoop_stop {s : State} (hcyc : ¬ 0 < s.cyc) (fuel : Nat) (events : List Event) :
    runLoop fuel s events = .next { final := s, events := events } := by
  cases fuel with
  | zero => rfl
  | succ fuel => rw [runLoop, if_neg hcyc]

theorem runLoop_pass {s t : State} (hcyc : 0 < s.cyc) (hstep : step s = .next t) (fuel : Nat) (events : List Event) :
    runLoop (fuel + 1) s events = runLoop fuel t (events ++ t.event.toList) := by
  rw [runLoop, if_pos hcyc, hstep]

/-- With a fuel of at least the counter, the model's loop leaves what the loop without fuel leaves, and appends its
events: each pass uses one unit of fuel and at least one cycle. -/
theorem RunsTo.runLoop_eq {s : State} {r : RunResult} (h : RunsTo s r) {fuel : Nat} (hfuel : s.cyc.toNat ≤ fuel)
    (events : List Event) :
    runLoop fuel s events = .next { final := r.final, events := events ++ r.events } := by
  induction h generalizing fuel events with
  | stop hcyc => rw [runLoop_stop hcyc, List.append_nil]
  | pass hcyc hstep _ ih =>
    have hlt := step_cyc_lt hstep
    cases fuel with
    | zero => omega
    | succ fuel => rw [runLoop_pass hcyc hstep, ih (by omega), List.append_assoc]

/-- `Execute(budget)` is the loop without fuel, begun with the counter at `budget` (R60). -/
theorem RunsTo.execute_eq {budget : Int} {s : State} {r : RunResult} (h : RunsTo { s with cyc := budget } r) :
    execute budget s = .next r :=
  h.runLoop_eq (Nat.le_refl _) []

/-- The loop ends from every state, since every step lowers the counter (R63). -/
theorem exists_runsTo (s : State) : ∃ r, RunsTo s r := by
  by_cases hcyc : 0 < s.cyc
  · obtain ⟨t, hstep, hlt⟩ := exists_step_cyc_lt s
    obtain ⟨r, hrest⟩ := exists_runsTo t
    exact ⟨_, .pass hcyc hstep hrest⟩
  · exact ⟨_, .stop hcyc⟩
termination_by s.cyc.toNat

/-! ### The obligations -/

/-- Settles O28: the charge is the instruction's cycles in both runs, and the rest of the next state is common. -/
theorem stepDoesNotTestTheCounter : Obligations.StepDoesNotTestTheCounter := by
  intro s cyc
  obtain ⟨t, hstep⟩ := step_charges s
  refine ⟨_, hstep s.cyc, ?_⟩
  rw [hstep cyc, Int.sub_sub_self]

/-- Settles O43: the two cases are the two rules of the loop without fuel, to which `RunsTo.execute_eq` reduces Execute
from the start and from the state after the first step. -/
theorem executeIsTheWhileLoop : Obligations.ExecuteIsTheWhileLoop := by
  intro budget s
  refine ⟨fun hbudget => (RunsTo.stop hbudget).execute_eq, fun hbudget => ?_⟩
  obtain ⟨t, hstep, -⟩ := exists_step_cyc_lt { s with cyc := budget }
  obtain ⟨r, hrest⟩ := exists_runsTo t
  exact ⟨t, r, hstep, hrest.execute_eq, (RunsTo.pass hbudget hstep hrest).execute_eq⟩

end Sys2Proof.Machine
end

section
/-! Proofs about the operand resolver (spec 41_addressing_modes.md R68 to R71). -/

namespace Sys2Proof.Machine

/-! ### The effective addresses as numbers -/

theorem zeroPageAddr_toNat (zp8 : Byte) : (zeroPageAddr zp8).toNat = zp8.toNat := zext16_toNat zp8

/-- R70: the reduction modulo 256 is the byte sum's own, and the extension after it leaves the number as it is. -/
theorem zeroPageXAddr_toNat (zp8 x : Byte) : (zeroPageXAddr zp8 x).toNat = (zp8.toNat + x.toNat) % 256 := by
  rw [zeroPageXAddr, zext16_toNat, BitVec.toNat_add]

/-! ### What each resolution answers and leaves -/

section
variable (s : State)

theorem State.resolveImmediate_spec :
    s.resolveImmediate = (s.mem.read s.pc, { s with pc := s.pc + 1, cyc := s.cyc - 1 }) :=
  s.fetchByte_spec

theorem State.resolveZeroPage_spec :
    s.resolveZeroPage = (zeroPageAddr (s.mem.read s.pc), { s with pc := s.pc + 1, cyc := s.cyc - 1 }) := by
  rw [State.resolveZeroPage, State.fetchByte_spec]

/-- R70: one cycle for the operand byte and one for the index addition. -/
theorem State.resolveZeroPageX_spec :
    s.resolveZeroPageX = (zeroPageXAddr (s.mem.read s.pc) s.x, { s with pc := s.pc + 1, cyc := s.cyc - 2 }) := by
  have hcyc : s.cyc - 1 - 1 = s.cyc - 2 := by omega
  rw [State.resolveZeroPageX, State.fetchByte_spec, ← hcyc]
  rfl

theorem State.resolveAbsolute_spec :
    s.resolveAbsolute =
      (wordOf (s.mem.read (s.pc + 1)) (s.mem.read s.pc), { s with pc := s.pc + 2, cyc := s.cyc - 2 }) :=
  s.fetchWord_spec

end

/-! ### The obligation -/

/-- Settles O29: each mode's resolution, and its address as a number. -/
theorem addressingModesResolve : Obligations.AddressingModesResolve := by
  intro s
  rw [State.resolveZeroPage_spec, State.resolveZeroPageX_spec, State.resolveAbsolute_spec]
  refine ⟨s.resolveImmediate_spec, zeroPageAddr_toNat _, rfl, zeroPageXAddr_toNat _ _, rfl, ?_, rfl⟩
  rw [wordOf_toNat]
  omega

end Sys2Proof.Machine
end

section
/-! Proofs about the three LDAs (spec 42_load_accumulator.md R74 to R77). -/

namespace Sys2Proof.Machine

/-! ### The load and its flags -/

/-- The sign bit by the table of R74: a byte is negative from 0x80 on. -/
theorem getLsbD_seven_eq_decide (v : Byte) : v.getLsbD 7 = decide (0x80 ≤ v.toNat) :=
  v.msb_eq_decide

/-- `loadA_spec` with the flags as R74 words them, by the number of the byte loaded. -/
theorem State.loadA_eq (s : State) (v : Byte) :
    s.loadA v =
      { s with a := v, p := { s.p with z := decide (v = 0x00), n := decide (0x80 ≤ v.toNat) } } := by
  rw [State.loadA_spec, getLsbD_seven_eq_decide]
  rfl

/-- R74's table for the two flags that a byte `v` sets. -/
theorem zn_table (v : Byte) :
    (v = 0x00 → decide (v = 0x00) = true ∧ decide (0x80 ≤ v.toNat) = false) ∧
    (0x01 ≤ v.toNat ∧ v.toNat ≤ 0x7F → decide (v = 0x00) = false ∧ decide (0x80 ≤ v.toNat) = false) ∧
    (0x80 ≤ v.toNat → decide (v = 0x00) = false ∧ decide (0x80 ≤ v.toNat) = true) := by
  have hzero : v = 0x00 ↔ v.toNat = 0 := BitVec.toNat_eq
  simp only [hzero, decide_eq_true_eq, decide_eq_false_iff_not]
  omega

/-! ### The effective addresses written from their numbers -/

theorem zeroPageAddr_eq_ofNat (zp8 : Byte) : zeroPageAddr zp8 = BitVec.ofNat 16 zp8.toNat := by
  rw [← zeroPageAddr_toNat, BitVec.ofNat_toNat, BitVec.setWidth_eq]

theorem zeroPageXAddr_eq_ofNat (zp8 x : Byte) :
    zeroPageXAddr zp8 x = BitVec.ofNat 16 ((zp8.toNat + x.toNat) % 256) := by
  rw [← zeroPageXAddr_toNat, BitVec.ofNat_toNat, BitVec.setWidth_eq]

/-! ### The obligations -/

/-- Settles O15: every LDA ends in a load, whose flags are those of the byte loaded. -/
theorem ldaFlagLaw : Obligations.LdaFlagLaw := by
  intro i s hi
  obtain ⟨v, _, hexec⟩ := exec_lda_writes hi s
  refine ⟨_, hexec s rfl rfl, ?_⟩
  rw [State.loadA_eq]
  exact ⟨rfl, zn_table v⟩

/-- Settles O10: the operand itself is the byte loaded. -/
theorem ldaImmediateResult : Obligations.LdaImmediateResult := by
  intro s imm8
  refine ⟨?_, fun hop himm => ?_⟩
  · rw [exec_ldaImm_spec, State.loadA_eq]
  · rw [step, State.fetchInstr_ldaImm hop, himm]

/-- Settles O11: the zero-extended operand is the address with the operand's number. -/
theorem ldaZeroPageResult : Obligations.LdaZeroPageResult := by
  intro s zp8 v hv
  refine ⟨?_, fun hop hzp => ?_⟩
  · rw [exec_ldaZp_spec, zeroPageAddr_eq_ofNat, ← hv, State.loadA_eq]
  · rw [step, State.fetchInstr_ldaZp hop, hzp]

/-- Settles O12: the byte sum, zero-extended, is the address with the number `(zp8 + X) mod 256`. -/
theorem ldaZeroPageXResult : Obligations.LdaZeroPageXResult := by
  intro s zp8 v hv
  refine ⟨?_, fun hop hzp => ?_⟩
  · rw [exec_ldaZpX_spec, zeroPageXAddr_eq_ofNat, ← hv, State.loadA_eq]
  · rw [step, State.fetchInstr_ldaZpX hop, hzp]

end Sys2Proof.Machine
end

section
/-! Proofs about the unrecognized opcodes (spec 44_unrecognized_opcodes.md R81, R82). -/

namespace Sys2Proof.Machine

/-- Settles O14: the meaning holds of every byte; only the step at it needs the byte to be outside the table. -/
theorem unrecognizedResult : Obligations.UnrecognizedResult := by
  intro s op hundef
  refine ⟨exec_unrecognized_spec s op, fun hop => ?_⟩
  have hfetch : s.fetchInstr = .unrecognized (s.mem.read s.pc) :=
    State.fetchInstr_unrecognized (hop ▸ hundef)
  rw [step, hfetch, hop]

end Sys2Proof.Machine
end

section
/-! Proofs about the event a step emits (spec 60_exceptions.md R84). -/

namespace Sys2Proof.Machine

/-- R84, the defined opcodes: an LDA and a JSR emit nothing. -/
theorem step_event_of_mem_definedOpcodes {s : State} (h : s.mem.read s.pc ∈ definedOpcodes) :
    ∃ t, step s = .next t ∧ t.event = none := by
  by_cases hlda : s.mem.read s.pc = 0xA9 ∨ s.mem.read s.pc = 0xA5 ∨ s.mem.read s.pc = 0xB5
  · obtain ⟨_, _, hstep⟩ := step_lda_writes hlda
    exact ⟨_, hstep s rfl rfl rfl, rfl⟩
  · have hjsr : s.mem.read s.pc = 0x20 := by
      simp only [definedOpcodes, List.mem_cons, List.not_mem_nil, or_false] at h
      tauto
    rw [step, State.fetchInstr_jsr hjsr]
    exact ⟨_, exec_jsr_spec s _, rfl⟩

/-- R84, every other opcode: the opcode fetch and the event are all the step does. -/
theorem step_of_notMem_definedOpcodes {s : State} (h : s.mem.read s.pc ∉ definedOpcodes) :
    step s = .next
      { s with pc := s.pc + 1, cyc := s.cyc - 1, event := some (.unrecognized (s.mem.read s.pc)) } := by
  rw [step, State.fetchInstr_unrecognized h, exec_unrecognized_spec]

/-- Settles O9, by whether the opcode byte is in the table. -/
theorem unrecognizedEventIffOpcodeUndefined : Obligations.UnrecognizedEventIffOpcodeUndefined := by
  intro s
  split
  next hdef =>
    obtain ⟨t, hstep, hevent⟩ := step_event_of_mem_definedOpcodes hdef
    exact ⟨t, hstep, hevent, fun hundef => absurd hdef hundef⟩
  next hundef => exact ⟨_, step_of_notMem_definedOpcodes hundef, rfl, fun _ => rfl⟩

end Sys2Proof.Machine
end

section
/-! Proofs about the first step after Reset (spec 70_reset_and_hazards.md R98). -/

namespace Sys2Proof

/-- The decoder on a list and the decoder where no byte can be missing agree on three bytes (R47, R51). -/
theorem eq_decodeThree_of_decode {op b1 b2 : Byte} {i : Instr} {rest : List Byte}
    (h : decode [op, b1, b2] = .instr i rest) : i = decodeThree op b1 b2 := by
  rw [decode_cons] at h
  unfold decodeThree
  rcases layoutOf_cases op with ⟨_, hop⟩ | ⟨_, hop⟩ | ⟨_, hop⟩ | ⟨_, hop⟩ | ⟨_, hop⟩ <;>
    · rw [hop] at h ⊢
      cases h
      rfl

end Sys2Proof

namespace Sys2Proof.Machine

/-- `step` runs whatever the three bytes at `PC` decode to. -/
theorem step_eq_exec_of_decode {s : State} {i : Instr} {rest : List Byte}
    (h : decode [s.mem.read s.pc, s.mem.read (s.pc + 1), s.mem.read (s.pc + 2)] = .instr i rest) :
    step s = exec i s := by
  rw [step, State.fetchInstr, ← eq_decodeThree_of_decode h]

/-- Settles O40: Reset leaves `PC` at 0xFFFC, so the three bytes at `PC` are those from 0xFFFC on. -/
theorem firstOpcodeIsAtResetPc : Obligations.FirstOpcodeIsAtResetPc := by
  intro s m cyc event i rest h
  have hpc : s.resetOp.pc = 0xFFFC := s.resetOp_meetsResetTable.1
  apply step_eq_exec_of_decode (rest := rest)
  rw [hpc]
  exact h

end Sys2Proof.Machine
end

section
/-! Proofs about the round trip of the encoding (spec 30_encoding.md R43 to R51). -/

namespace Sys2Proof

/-! ### Encode, then decode -/

theorem Instr.wf_unrecognized {op : Byte} : (Instr.unrecognized op).wf = true ↔ op ∉ definedOpcodes := by
  simp [Instr.wf]

/-- Settles O1, format by format: an address comes back from its two bytes, and a well-formed unrecognized opcode is
none of the four. -/
theorem decodeOfEncodeIsTheInstruction : Obligations.DecodeOfEncodeIsTheInstruction := by
  intro i rest hwf
  cases i with
  | ldaImm imm8 => exact decode_ldaImm rest imm8
  | ldaZp zp8 => exact decode_ldaZp rest zp8
  | ldaZpX zp8 => exact decode_ldaZpX rest zp8
  | jsr addr16 =>
    have hdecode := decode_jsr rest (lowByte addr16) (highByte addr16)
    rwa [wordOf_high_low] at hdecode
  | unrecognized op => exact decode_unrecognized rest (Instr.wf_unrecognized.mp hwf)

/-! ### Decode, then encode -/

section
variable {op : Byte} {tail rest : List Byte} {i : Instr}

/-- A format with one operand byte decodes only if that byte is there. -/
theorem decode_opB_inv {mk : Byte → Instr} (hop : layoutOf op = .opB mk) (h : decode (op :: tail) = .instr i rest) :
    ∃ b, tail = b :: rest ∧ i = mk b := by
  rw [decode_cons, hop] at h
  cases tail with
  | nil => cases h
  | cons b tail => cases h; exact ⟨b, rfl, rfl⟩

/-- A format with an operand word decodes only if both bytes are there. -/
theorem decode_opW_inv {mk : Word → Instr} (hop : layoutOf op = .opW mk) (h : decode (op :: tail) = .instr i rest) :
    ∃ lo hi, tail = lo :: hi :: rest ∧ i = mk (wordOf hi lo) := by
  rw [decode_cons, hop] at h
  match tail, h with
  | lo :: hi :: _, rfl => exact ⟨lo, hi, rfl, rfl⟩

end

/-- Settles O2, by the format of the opcode byte. -/
theorem decodedInstructionEncodesToItsBytes : Obligations.DecodedInstructionEncodesToItsBytes := by
  intro bytes rest i h
  cases bytes with
  | nil => cases h
  | cons op tail =>
    rcases layoutOf_cases op with ⟨rfl, hop⟩ | ⟨rfl, hop⟩ | ⟨rfl, hop⟩ | ⟨rfl, hop⟩ | ⟨hundef, -⟩
    · obtain ⟨b, rfl, rfl⟩ := decode_opB_inv hop h
      exact ⟨rfl, rfl⟩
    · obtain ⟨b, rfl, rfl⟩ := decode_opB_inv hop h
      exact ⟨rfl, rfl⟩
    · obtain ⟨b, rfl, rfl⟩ := decode_opB_inv hop h
      exact ⟨rfl, rfl⟩
    · obtain ⟨lo, hi, rfl, rfl⟩ := decode_opW_inv hop h
      refine ⟨rfl, ?_⟩
      rw [encode, lowByte_wordOf, highByte_wordOf]
      rfl
    · cases (decode_unrecognized tail hundef).symm.trans h
      exact ⟨Instr.wf_unrecognized.mpr hundef, rfl⟩

/-! ### Length and samples -/

/-- Settles O6: by the round trip the bytes are the encoding of the instruction and the rest, so opcode and operands
are read off the encoding. -/
theorem lengthIsAFunctionOfTheOpcode : Obligations.LengthIsAFunctionOfTheOpcode := by
  intro op tail rest i h
  obtain ⟨hwf, hbytes⟩ := decodedInstructionEncodesToItsBytes _ _ _ h
  cases i with
  | ldaImm | ldaZp | ldaZpX =>
    cases hbytes
    exact ⟨rfl, rfl, Nat.add_comm rest.length 1⟩
  | jsr addr16 =>
    cases hbytes
    exact ⟨rfl, rfl, Nat.add_comm rest.length 2⟩
  | unrecognized op =>
    cases hbytes
    obtain ⟨hA9, hA5, hB5, h20⟩ := not_mem_definedOpcodes.mp (Instr.wf_unrecognized.mp hwf)
    simp [Instr.length, hA9, hA5, hB5, h20]

/-- Settles O5: six runs of the decoder. -/
theorem sampleWordsDecode : Obligations.SampleWordsDecode :=
  ⟨rfl, rfl, rfl, rfl, rfl, rfl⟩

/-- Three bytes always decode, to what the decoder in memory answers (R43, R51). -/
theorem exists_decode_three (op b1 b2 : Byte) : ∃ rest, decode [op, b1, b2] = .instr (decodeThree op b1 b2) rest := by
  unfold decodeThree
  rcases layoutOf_cases op with ⟨-, hop⟩ | ⟨-, hop⟩ | ⟨-, hop⟩ | ⟨-, hop⟩ | ⟨-, hop⟩ <;>
    · rw [decode_cons, hop]
      exact ⟨_, rfl⟩

end Sys2Proof

namespace Sys2Proof.Machine

/-- Settles O7: the three bytes at `PC` decode to the instruction that `step` runs, which the round trip makes
well-formed. -/
theorem stepRunsTheDecodedInstruction : Obligations.StepRunsTheDecodedInstruction := by
  intro s
  obtain ⟨rest, hdecode⟩ := exists_decode_three (s.mem.read s.pc) (s.mem.read (s.pc + 1)) (s.mem.read (s.pc + 2))
  exact ⟨fun _ _ => step_eq_exec_of_decode, _, rest, hdecode,
    (decodedInstructionEncodesToItsBytes _ _ _ hdecode).1, step_eq_exec_of_decode hdecode⟩

end Sys2Proof.Machine
end

section
/-! Proofs about memory as data and its two ways of being written (spec 20_memory.md R25 to R30). -/

namespace Sys2Proof.Machine

/-! ### The canonical form -/

/-- In a canonical memory every cell is the one that a read at its address finds. -/
theorem Memory.read_of_mem {m : Memory} (hm : m.wf) {c : Host.Cell} (hc : c ∈ m) {a : Word} (ha : c.1 = a.toNat) :
    m.read a = c.2 := by
  obtain ⟨hsorted, -⟩ := hm
  induction m with
  | nil => cases hc
  | cons d m ih =>
    obtain ⟨hd, hsorted⟩ := List.pairwise_cons.mp hsorted
    rw [Memory.read_cons]
    rcases List.mem_cons.mp hc with rfl | hc
    · rw [if_pos ha]
    · have hlt := hd c hc
      rw [if_neg (by omega), ih hc hsorted]

/-- A read that is not what an unlisted address reads as comes from a cell. -/
theorem Memory.mem_of_read_ne {m : Memory} {a : Word} (h : m.read a ≠ Memory.unlisted) : (a.toNat, m.read a) ∈ m := by
  induction m with
  | nil => exact absurd rfl h
  | cons c m ih =>
    rw [Memory.read_cons] at h ⊢
    split
    next ha => simp [← ha]
    next ha =>
      rw [if_neg ha] at h
      exact List.mem_cons_of_mem c (ih h)

/-- Every cell of one canonical memory is a cell of any memory that reads alike. -/
theorem Memory.subset_of_read_eq {m m' : Memory} (hm : m.wf) (h : ∀ a, m.read a = m'.read a) : m ⊆ m' := by
  intro c hc
  obtain ⟨hlt, hne⟩ := hm.2 c hc
  obtain ⟨a, ha⟩ : ∃ a : Word, c.1 = a.toNat := ⟨⟨c.1, hlt⟩, rfl⟩
  have hread := Memory.read_of_mem hm hc ha
  rw [h a] at hread
  have hmem := Memory.mem_of_read_ne (hread ▸ hne)
  rwa [hread, ← ha] at hmem

/-- Settles O33: the two memories have the same cells, each once, in the one order of rising addresses. -/
theorem canonicalMemoriesThatReadAlikeAreEqual : Obligations.CanonicalMemoriesThatReadAlikeAreEqual := by
  intro m m' hm hm' h
  have hsub : m ⊆ m' := Memory.subset_of_read_eq hm h
  have hsub' : m' ⊆ m := Memory.subset_of_read_eq hm' fun a => (h a).symm
  have hnodup {l : Memory} (hl : l.wf) : l.Nodup := hl.1.imp fun hlt heq => (heq ▸ hlt).false
  have hperm : m.Perm m' := (List.perm_ext_iff_of_nodup (hnodup hm) (hnodup hm')).mpr fun c => ⟨@hsub c, @hsub' c⟩
  exact hperm.eq_of_pairwise (fun _ _ _ _ hab hba => (hab.asymm hba).elim) hm.1 hm'.1

/-! ### WriteWord and the host's write -/

/-- Settles O32, from what every read gives after `WriteWord`. -/
theorem writeWordChangesTwoBytes : Obligations.WriteWordChangesTwoBytes := by
  intro s w a
  refine ⟨(s.writeWord w a).mem, ?_, s.writeWord_read_low w a, s.writeWord_read_high w a, fun adr hlow hhigh => ?_⟩
  · rw [State.writeWord_spec]
  · rw [State.writeWord_read, if_neg hhigh, if_neg hlow]

/-- Settles O42, from what every read gives after a write. -/
theorem hostWriteChangesOneCell : Obligations.HostWriteChangesOneCell := by
  intro s adr v
  refine ⟨s.mem.write adr v, rfl, fun other => ?_⟩
  rw [Block.hostRead, Memory.read_write]

end Sys2Proof.Machine
end

section
/-! Proofs about JSR, the one instruction that writes memory (spec 43_subroutine_call.md R79, R80). -/

namespace Sys2Proof.Machine

/-! ### One JSR -/

/-- What a JSR to `target` leaves (R79): the return word is written at `SP`. -/
def State.afterJsr (s : State) (target : Word) : State :=
  { s with
    pc := target, sp := s.sp + 1, mem := (s.writeWord (s.pc + 2) s.sp).mem, cyc := s.cyc - 6, event := none }

theorem exec_jsr (target : Word) (s : State) : exec (.jsr target) s = .next (s.afterJsr target) :=
  exec_jsr_spec s target

section
variable (s : State) (target : Word)

@[simp] theorem State.afterJsr_pc : (s.afterJsr target).pc = target := rfl
@[simp] theorem State.afterJsr_sp : (s.afterJsr target).sp = s.sp + 1 := rfl
@[simp] theorem State.afterJsr_mem : (s.afterJsr target).mem = (s.writeWord (s.pc + 2) s.sp).mem := rfl

theorem State.afterJsr_read_low : (s.afterJsr target).mem.read s.sp = lowByte (s.pc + 2) :=
  s.writeWord_read_low _ _

theorem State.afterJsr_read_high : (s.afterJsr target).mem.read (s.sp + 1) = highByte (s.pc + 2) :=
  s.writeWord_read_high _ _

theorem State.afterJsr_read_other {adr : Word} (hlow : adr ≠ s.sp) (hhigh : adr ≠ s.sp + 1) :
    (s.afterJsr target).mem.read adr = s.mem.read adr := by
  rw [State.afterJsr_mem, State.writeWord_read, if_neg hhigh, if_neg hlow]

/-- The push address that JSR computes is `SP` (R72): passing the instruction's bytes leaves `SP` alone. -/
theorem State.begin_stackAddr (len : Nat) : (s.begin len).stackAddr = s.sp := by
  rw [State.stackAddr, State.begin_spec]

end

/-- The target in a JSR's operand bytes, read after its opcode byte. -/
theorem step_jsr {s : State} (h : s.mem.read s.pc = 0x20) :
    step s = .next (s.afterJsr (wordOf (s.mem.read (s.pc + 2)) (s.mem.read (s.pc + 1)))) := by
  have hpc : s.pc + 1 + 1 = s.pc + 2 := by bv_omega
  rw [step, State.fetchInstr_jsr h, exec_jsr, Memory.readWord, hpc]

/-- Settles O13, from the state a JSR leaves and the three reads of its memory. -/
theorem jsrResult : Obligations.JsrResult := by
  intro s addr16
  refine ⟨⟨s.afterJsr addr16, exec_jsr addr16 s, rfl, s.afterJsr_read_low _, s.afterJsr_read_high _, ?_⟩, ?_⟩
  · rintro ea rfl
    rw [State.begin_stackAddr]
    exact ⟨rfl, fun adr => s.afterJsr_read_other addr16⟩
  · intro hop htarget
    rw [step_jsr hop, htarget, exec_jsr]

/-- Settles O17. -/
theorem jsrFrame : Obligations.JsrFrame := by
  intro addr16 s t h
  cases (exec_jsr addr16 s).symm.trans h
  refine ⟨rfl, rfl, rfl, rfl, rfl, ?_⟩
  rintro ea rfl adr
  rw [State.begin_stackAddr]
  exact s.afterJsr_read_other addr16

/-- Settles O34: `step_jsr` names the target by the memory before the write. -/
theorem jsrFetchesBeforeItWrites : Obligations.JsrFetchesBeforeItWrites := by
  intro s hop
  refine ⟨_, step_jsr hop, rfl, fun hlow => ?_, fun hhigh => ?_⟩
  · rw [hlow, State.afterJsr_read_low]
  · rw [hhigh, State.afterJsr_read_high]

/-! ### A chain of JSRs -/

theorem jsrChain_eq (targets : List Word) (s : State) : jsrChain targets s = .next (targets.foldl State.afterJsr s) := by
  induction targets generalizing s with
  | nil => rfl
  | cons target targets ih =>
    rw [jsrChain, exec_jsr]
    exact ih _

section
variable (s : State) (targets : List Word)

theorem foldl_afterJsr_sp : (targets.foldl State.afterJsr s).sp = s.sp + BitVec.ofNat 16 targets.length := by
  induction targets generalizing s with
  | nil => simp
  | cons target targets ih =>
    rw [List.foldl_cons, ih, State.afterJsr_sp, BitVec.add_assoc, List.length_cons, Nat.add_comm, BitVec.ofNat_add]
    rfl

/-- The chain ends at its last target, or where it began if it has none. -/
theorem foldl_afterJsr_pc : (targets.foldl State.afterJsr s).pc = (s.pc :: targets).getD targets.length 0 := by
  induction targets generalizing s with
  | nil => rfl
  | cons target targets ih => rw [List.foldl_cons, ih, State.afterJsr_pc, List.length_cons, List.getD_cons_succ]

/-- The opcode addresses of a chain do not depend on the target of a JSR appended to it. -/
theorem getD_opcode_addrs_append {k : Nat} (hk : k ≤ targets.length) (last : Word) :
    (s.pc :: (targets ++ [last])).getD k 0 = (s.pc :: targets).getD k 0 := by
  rw [← List.cons_append, List.getD_append]
  simpa [Nat.lt_succ_iff] using hk

/-- The low bytes of the return words: a JSR appended to the chain writes above the cells of those before it. -/
theorem foldl_afterJsr_read_low (hlen : targets.length < 65536) {k : Nat} (hk : k < targets.length) :
    (targets.foldl State.afterJsr s).mem.read (s.sp + BitVec.ofNat 16 k) =
      lowByte ((s.pc :: targets).getD k 0 + 2) := by
  induction targets using List.reverseRecOn with
  | nil => cases hk
  | append_singleton targets last ih =>
    rw [List.length_append, List.length_singleton] at hlen hk
    rw [List.foldl_concat, getD_opcode_addrs_append s targets (by omega)]
    have hsp := foldl_afterJsr_sp s targets
    rcases Nat.lt_succ_iff_lt_or_eq.mp hk with hk | rfl
    · rw [State.afterJsr_read_other, ih (by omega) hk]
      · rw [hsp]; bv_omega
      · rw [hsp]; bv_omega
    · rw [← hsp, State.afterJsr_read_low, foldl_afterJsr_pc]

/-- The high byte of the last return word stands after the low bytes. -/
theorem foldl_afterJsr_read_high (hne : 0 < targets.length) :
    (targets.foldl State.afterJsr s).mem.read (s.sp + BitVec.ofNat 16 targets.length) =
      highByte ((s.pc :: targets).getD (targets.length - 1) 0 + 2) := by
  induction targets using List.reverseRecOn with
  | nil => cases hne
  | append_singleton targets last =>
    rw [List.length_append, List.length_singleton, Nat.add_sub_cancel, getD_opcode_addrs_append s targets (le_refl _),
      List.foldl_concat, BitVec.ofNat_add, ← BitVec.add_assoc, ← foldl_afterJsr_sp, ← foldl_afterJsr_pc]
    exact State.afterJsr_read_high _ last

end

/-- Settles O35. -/
theorem chainedJsrsOverlapOnTheStack : Obligations.ChainedJsrsOverlapOnTheStack := fun s targets hne hlen =>
  ⟨_, jsrChain_eq targets s, foldl_afterJsr_sp s targets, fun _ => foldl_afterJsr_read_low s targets hlen,
    foldl_afterJsr_read_high s targets hne⟩

end Sys2Proof.Machine
end

section
/-! Proofs about every step: what it leaves, what it charges, and its reference in the spec's pseudocode
(spec 40_fetch_execute_loop.md R55 to R58, R65). -/

namespace Sys2Proof.Machine

/-! ### What a step leaves, by the class of its opcode -/

/-- An opcode is an LDA, or JSR, or outside the table (R48). -/
theorem opcode_cases (op : Byte) : (op = 0xA9 ∨ op = 0xA5 ∨ op = 0xB5) ∨ op = 0x20 ∨ op ∉ definedOpcodes := by
  rw [not_mem_definedOpcodes]
  tauto

theorem ne_jsr_of_lda {op : Byte} (h : op = 0xA9 ∨ op = 0xA5 ∨ op = 0xB5) : op ≠ 0x20 := by
  rcases h with rfl | rfl | rfl <;> decide

theorem not_lda_of_notMem_definedOpcodes {op : Byte} (h : op ∉ definedOpcodes) :
    ¬(op = 0xA9 ∨ op = 0xA5 ∨ op = 0xB5) := by
  rw [not_mem_definedOpcodes] at h
  tauto

theorem ne_jsr_of_notMem_definedOpcodes {op : Byte} (h : op ∉ definedOpcodes) : op ≠ 0x20 :=
  (not_mem_definedOpcodes.mp h).2.2.2

/-- The whole next state of every step but for the byte and the charge of an LDA. -/
theorem step_cases {s t : State} (h : step s = .next t) :
    ((s.mem.read s.pc = 0xA9 ∨ s.mem.read s.pc = 0xA5 ∨ s.mem.read s.pc = 0xB5) ∧
      ∃ (v : Byte) (n : Int), t = State.loadA { s with pc := s.pc + 2, cyc := s.cyc - n, event := none } v) ∨
    (s.mem.read s.pc = 0x20 ∧
      t = s.afterJsr (wordOf (s.mem.read (s.pc + 2)) (s.mem.read (s.pc + 1)))) ∨
    (s.mem.read s.pc ∉ definedOpcodes ∧
      t = { s with pc := s.pc + 1, cyc := s.cyc - 1, event := some (.unrecognized (s.mem.read s.pc)) }) := by
  rcases opcode_cases (s.mem.read s.pc) with hop | hop | hop
  · obtain ⟨v, n, hstep⟩ := step_lda_writes hop
    cases h.symm.trans (hstep s rfl rfl rfl)
    exact .inl ⟨hop, v, n, rfl⟩
  · cases h.symm.trans (step_jsr hop)
    exact .inr (.inl ⟨hop, rfl⟩)
  · cases h.symm.trans (step_of_notMem_definedOpcodes hop)
    exact .inr (.inr ⟨hop, rfl⟩)

theorem exists_step (s : State) : ∃ t, step s = .next t :=
  let ⟨t, hstep, _⟩ := exists_step_cyc_lt s
  ⟨t, hstep⟩

/-! ### Memory and `PC` -/

/-- Settles O36: an LDA and an unrecognized opcode keep memory as it is, and JSR's word write keeps the canonical form. -/
theorem stepKeepsMemoryCanonical : Obligations.StepKeepsMemoryCanonical := by
  intro s t hs h
  rcases step_cases h with ⟨-, v, n, rfl⟩ | ⟨-, rfl⟩ | ⟨-, rfl⟩
  · exact hs
  · exact State.wf_writeWord _ _ hs
  · exact hs

/-- Settles O21. -/
theorem onlyJsrWritesMemory : Obligations.OnlyJsrWritesMemory := by
  intro s
  obtain ⟨t, h⟩ := exists_step s
  refine ⟨t, h, fun adr hadr => ?_⟩
  rcases step_cases h with ⟨-, v, n, rfl⟩ | ⟨hop, rfl⟩ | ⟨-, rfl⟩
  · rfl
  · obtain ⟨hlow, hhigh⟩ := hadr.resolve_left (not_not_intro hop)
    exact s.afterJsr_read_other _ hlow hhigh
  · rfl

/-- Settles O20. -/
theorem pcAfterAStep : Obligations.PcAfterAStep := by
  intro s
  obtain ⟨t, h⟩ := exists_step s
  refine ⟨t, h, ?_⟩
  rcases step_cases h with ⟨hop, v, n, rfl⟩ | ⟨hop, rfl⟩ | ⟨hop, rfl⟩
  · rw [if_neg (ne_jsr_of_lda hop), if_pos hop]
    rfl
  · rw [if_pos hop]
    rfl
  · rw [if_neg (ne_jsr_of_notMem_definedOpcodes hop), if_neg (not_lda_of_notMem_definedOpcodes hop)]

/-! ### Cycles -/

theorem cyclesOf_le_six (i : Instr) : cyclesOf i ≤ 6 := by
  cases i <;> simp [cyclesOf]

/-- Settles O19: `exec_charges` and `step_charges` at the counter as it is. -/
theorem cycleTotals : Obligations.CycleTotals := by
  refine ⟨fun i s => ?_, fun s => ?_⟩
  · obtain ⟨t, hexec⟩ := exec_charges i s
    exact ⟨_, hexec s.cyc, rfl⟩
  · obtain ⟨t, hstep⟩ := step_charges s
    have hmin := one_le_cyclesOf s.fetchInstr
    have hmax := cyclesOf_le_six s.fetchInstr
    exact ⟨_, hstep s.cyc, rfl, by simp only; omega, by simp only; omega⟩

/-! ### Frames of the LDAs and of the unrecognized opcodes -/

/-- Settles O16. -/
theorem ldaFrame : Obligations.LdaFrame := by
  intro i s t hi h
  obtain ⟨v, n, hexec⟩ := exec_lda_writes hi s
  cases h.symm.trans (hexec s rfl rfl)
  exact ⟨rfl, rfl, rfl, rfl, rfl, rfl, rfl, rfl, rfl, fun _ => rfl⟩

/-- Settles O18. -/
theorem unrecognizedFrame : Obligations.UnrecognizedFrame := by
  intro op s t h
  cases h.symm.trans (exec_unrecognized_spec s op)
  exact ⟨rfl, rfl, rfl, rfl, rfl, fun _ => rfl⟩

/-! ### `X` and `SP` as inputs -/

/-- Every instruction but LDA zero-page,X leaves the same next state, `t`, for every `X`, and `X` as it was. -/
theorem exec_ignores_x {i : Instr} (hi : ∀ zp8, i ≠ .ldaZpX zp8) (s : State) :
    ∃ t : State, ∀ x : Byte, exec i { s with x := x } = .next { t with x := x } := by
  cases i with
  | ldaImm imm8 =>
    exact ⟨State.loadA { s with pc := s.pc + 2, cyc := s.cyc - 2, event := none } imm8,
      fun _ => exec_ldaImm_spec _ imm8⟩
  | ldaZp zp8 =>
    exact ⟨State.loadA { s with pc := s.pc + 2, cyc := s.cyc - 3, event := none } (s.mem.read (zeroPageAddr zp8)),
      fun _ => exec_ldaZp_spec _ zp8⟩
  | ldaZpX zp8 => exact absurd rfl (hi zp8)
  | jsr addr16 => exact ⟨s.afterJsr addr16, fun _ => exec_jsr addr16 _⟩
  | unrecognized op =>
    exact ⟨{ s with pc := s.pc + 1, cyc := s.cyc - 1, event := some (.unrecognized op) },
      fun _ => exec_unrecognized_spec _ op⟩

/-- LDA zero-page,X is at `PC` only at its opcode (R48). -/
theorem State.fetchInstr_ne_ldaZpX {s : State} (hop : s.mem.read s.pc ≠ 0xB5) (zp8 : Byte) :
    s.fetchInstr ≠ .ldaZpX zp8 := by
  intro h
  rcases s.fetchInstr_cases with ⟨-, hi⟩ | ⟨-, hi⟩ | ⟨hB5, -⟩ | ⟨-, hi⟩ | ⟨-, hi⟩
  · cases hi.symm.trans h
  · cases hi.symm.trans h
  · exact hop hB5
  · cases hi.symm.trans h
  · cases hi.symm.trans h

/-- Settles O26: at B5 `X` is only kept; at every other opcode it is no input either. -/
theorem xIsReadByZeroPageXOnly : Obligations.XIsReadByZeroPageXOnly := by
  intro s x
  by_cases hop : s.mem.read s.pc = 0xB5
  · obtain ⟨v, n, hstep⟩ := step_lda_writes (.inr (.inr hop))
    exact ⟨_, hstep s rfl rfl rfl, rfl, fun hne => absurd hop hne⟩
  · obtain ⟨t, hexec⟩ := exec_ignores_x (State.fetchInstr_ne_ldaZpX hop) s
    exact ⟨_, hexec s.x, rfl, fun _ => hexec x⟩

/-- Settles O27: an LDA and an unrecognized opcode do the same from every `SP`. -/
theorem spIsReadAndWrittenByJsrOnly : Obligations.SpIsReadAndWrittenByJsrOnly := by
  intro s sp
  rcases opcode_cases (s.mem.read s.pc) with hop | hop | hop
  · obtain ⟨v, n, hstep⟩ := step_lda_writes hop
    refine ⟨_, hstep s rfl rfl rfl, ?_⟩
    rw [if_neg (ne_jsr_of_lda hop)]
    exact ⟨rfl, hstep _ rfl rfl rfl⟩
  · refine ⟨_, step_jsr hop, ?_⟩
    rw [if_pos hop]
    rfl
  · refine ⟨_, step_of_notMem_definedOpcodes hop, ?_⟩
    rw [if_neg (ne_jsr_of_notMem_definedOpcodes hop)]
    exact ⟨rfl, step_of_notMem_definedOpcodes (s := { s with sp := sp }) hop⟩

/-! ### The primitives and the pseudocode -/

/-- Settles O30. -/
theorem primitivesChargeTheirCycles : Obligations.PrimitivesChargeTheirCycles := by
  intro s adr
  refine ⟨s.fetchByte_spec, ?_, ?_, rfl⟩
  · rw [State.fetchWord_spec, wordOf_toNat]
    omega
  · rw [State.fetchWord_spec]

/-- Settles O8, by the pseudocode's own chain of tests. At each opcode the meaning passes the bytes that the pseudocode
fetches, its decoded operand is what those fetches answer, and the output, set at the start instead of at the end, is a
field that nothing in between touches; so the two sides compute to one state. -/
theorem stepFollowsThePseudocode : Obligations.StepFollowsThePseudocode := by
  intro s
  unfold pseudoStep
  rw [State.fetchByte_spec]
  dsimp only
  split_ifs with hA9 hA5 hB5 h20
  · rw [step, State.fetchInstr_ldaImm hA9]
    rfl
  · rw [step, State.fetchInstr_ldaZp hA5]
    rfl
  · rw [step, State.fetchInstr_ldaZpX hB5]
    rfl
  · rw [step, State.fetchInstr_jsr h20]
    rfl
  · rw [step, State.fetchInstr_unrecognized (not_mem_definedOpcodes.mpr ⟨hA9, hA5, hB5, h20⟩)]
    rfl

end Sys2Proof.Machine
end

section
/-! Proofs about the run of whole steps that Execute is (spec 40_fetch_execute_loop.md R60 to R66;
60_exceptions.md R84, R96; 70_reset_and_hazards.md R101, R109). -/

namespace Sys2Proof.Machine

/-! ### One step and the counter -/

/-- A step charges at most six cycles (R65). -/
theorem step_cyc_ge {s t : State} (h : step s = .next t) : s.cyc - 6 ≤ t.cyc := by
  obtain ⟨t', hstep, -, hge, -⟩ := cycleTotals.2 s
  cases h.symm.trans hstep
  exact hge

/-- A step from a counter higher by `d` leaves a counter higher by `d`, and the same otherwise (R59). -/
theorem step_add_cyc {s t : State} (h : step s = .next t) (d : Int) :
    step { s with cyc := s.cyc + d } = .next { t with cyc := t.cyc + d } := by
  obtain ⟨u, hstep⟩ := step_charges s
  cases h.symm.trans (hstep s.cyc)
  rw [hstep, ← add_sub_right_comm]

/-- The event of a step, if it has one, names a byte outside the table (R84). -/
theorem event_of_step {s t : State} (h : step s = .next t) {e : Event} (he : e ∈ t.event.toList) :
    ∃ op, e = .unrecognized op ∧ op ∉ definedOpcodes := by
  rcases step_cases h with ⟨-, v, n, rfl⟩ | ⟨-, rfl⟩ | ⟨hop, rfl⟩
  · cases he
  · cases he
  · exact ⟨_, List.mem_singleton.mp he, hop⟩

/-! ### What the loop without fuel keeps -/

/-- Execute answers what the loop without fuel leaves (R60). -/
theorem runsTo_of_execute {budget : Int} {s : State} {r : RunResult} (h : execute budget s = .next r) :
    RunsTo { s with cyc := budget } r := by
  obtain ⟨r', hr'⟩ := exists_runsTo { s with cyc := budget }
  cases h.symm.trans hr'.execute_eq
  exact hr'

/-- What every step keeps, the loop keeps. -/
theorem RunsTo.keeps {P : State → Prop} (hP : ∀ {s t : State}, P s → step s = .next t → P t) {s : State} {r : RunResult}
    (h : RunsTo s r) (hs : P s) : P r.final := by
  induction h with
  | stop => exact hs
  | pass _ hstep _ ih => exact ih (hP hs hstep)

/-- R62: the loop stops at the first counter that is not positive, which one step reached from at least 1. -/
theorem RunsTo.final_cyc {s : State} {r : RunResult} (h : RunsTo s r) (hs : -5 ≤ s.cyc) :
    -5 ≤ r.final.cyc ∧ r.final.cyc ≤ 0 := by
  induction h with
  | stop hcyc => exact ⟨hs, not_lt.mp hcyc⟩
  | pass hcyc hstep _ ih =>
    have hge := step_cyc_ge hstep
    exact ih (by omega)

theorem RunsTo.event_undefined {s : State} {r : RunResult} (h : RunsTo s r) :
    ∀ e ∈ r.events, ∃ op, e = .unrecognized op ∧ op ∉ definedOpcodes := by
  induction h with
  | stop => simp
  | pass _ hstep _ ih =>
    intro e he
    rcases List.mem_append.mp he with he | he
    · exact event_of_step hstep he
    · exact ih e he

/-- The loop with `d` more cycles first does what it did with fewer, and goes on from there. -/
theorem RunsTo.extend {s : State} {r : RunResult} (h : RunsTo s r) {d : Int} (hd : 0 ≤ d) {r' : RunResult}
    (h' : RunsTo { r.final with cyc := r.final.cyc + d } r') :
    RunsTo { s with cyc := s.cyc + d } { final := r'.final, events := r.events ++ r'.events } := by
  induction h with
  | stop => exact h'
  | pass hcyc hstep _ ih =>
    rw [List.append_assoc]
    exact .pass (Int.add_pos_of_pos_of_nonneg hcyc hd) (step_add_cyc hstep d) (ih h')

/-! ### A given number of steps -/

/-- `k` whole steps as a relation, the events in order: `r` is what they leave. `Steps.runSteps_eq` ties it to the model's
`runSteps`. -/
inductive Steps : Nat → State → RunResult → Prop where
  | zero {s : State} : Steps 0 s { final := s, events := [] }
  | succ {k : Nat} {s t : State} {r : RunResult} (hstep : step s = .next t) (hrest : Steps k t r) :
      Steps (k + 1) s { final := r.final, events := t.event.toList ++ r.events }

theorem Steps.runSteps_eq {k : Nat} {s : State} {r : RunResult} (h : Steps k s r) (events : List Event) :
    runSteps k s events = .next { final := r.final, events := events ++ r.events } := by
  induction h generalizing events with
  | zero => rw [runSteps, List.append_nil]
  | succ hstep _ ih =>
    rw [runSteps, hstep, ← List.append_assoc]
    exact ih _

theorem exists_steps (k : Nat) (s : State) : ∃ r, Steps k s r := by
  induction k generalizing s with
  | zero => exact ⟨_, .zero⟩
  | succ k ih =>
    obtain ⟨t, hstep⟩ := exists_step s
    obtain ⟨r, hrest⟩ := ih t
    exact ⟨_, .succ hstep hrest⟩

theorem steps_of_runSteps {k : Nat} {s : State} {r : RunResult} (h : runSteps k s [] = .next r) : Steps k s r := by
  obtain ⟨r', hr'⟩ := exists_steps k s
  cases h.symm.trans (hr'.runSteps_eq [])
  exact hr'

theorem Steps.final_cyc_le {k : Nat} {s : State} {r : RunResult} (h : Steps k s r) : r.final.cyc ≤ s.cyc := by
  induction h with
  | zero => exact le_refl _
  | succ hstep _ ih => exact ih.trans (step_cyc_lt hstep).le

theorem Steps.add_cyc {k : Nat} {s : State} {r : RunResult} (h : Steps k s r) (d : Int) :
    Steps k { s with cyc := s.cyc + d } { r with final := { r.final with cyc := r.final.cyc + d } } := by
  induction h with
  | zero => exact .zero
  | succ hstep _ ih => exact .succ (step_add_cyc hstep d) ih

/-- The loop is a run of whole steps (R63, R66): each costs between one cycle and six, and each is taken at a positive
counter. -/
theorem RunsTo.exists_steps {s : State} {r : RunResult} (h : RunsTo s r) :
    ∃ k : Nat, Steps k s r ∧ (k : Int) ≤ max s.cyc 0 ∧ s.cyc ≤ 6 * (k : Int) ∧
      ∀ j < k, ∃ q, Steps j s q ∧ 0 < q.final.cyc := by
  induction h with
  | stop hcyc => exact ⟨0, .zero, le_max_right _ _, not_lt.mp hcyc, fun j hj => absurd hj j.not_lt_zero⟩
  | pass hcyc hstep _ ih =>
    obtain ⟨k, hk, hmax, hsixth, hpos⟩ := ih
    have hlt := step_cyc_lt hstep
    have hge := step_cyc_ge hstep
    refine ⟨k + 1, .succ hstep hk, by omega, by omega, fun j hj => ?_⟩
    cases j with
    | zero => exact ⟨_, .zero, hcyc⟩
    | succ j =>
      obtain ⟨q, hq, hqpos⟩ := hpos j (Nat.lt_of_succ_lt_succ hj)
      exact ⟨_, .succ hstep hq, hqpos⟩

/-- The converse: if the counter is positive before the last of `k + 1` steps and not after it, the loop is those steps,
since the counter only falls. -/
theorem Steps.runsTo {k : Nat} {s : State} {q q' : RunResult} (h : Steps k s q) (h' : Steps (k + 1) s q')
    (hpos : 0 < q.final.cyc) (hend : q'.final.cyc ≤ 0) : RunsTo s q' := by
  induction h generalizing q' with
  | zero =>
    obtain _ | ⟨hstep, ⟨⟩⟩ := h'
    exact .pass hpos hstep (.stop (not_lt.mpr hend))
  | succ hstep hrest ih =>
    obtain _ | ⟨hstep', hrest'⟩ := h'
    cases hstep.symm.trans hstep'
    have hle := (Steps.succ hstep hrest).final_cyc_le
    exact .pass (hpos.trans_le hle) hstep (ih hrest' hpos hend)

/-! ### The obligations -/

/-- Settles O44. -/
theorem executeOvershootsByAtMostFive : Obligations.ExecuteOvershootsByAtMostFive := by
  intro budget s hbudget
  obtain ⟨r, hr⟩ := exists_runsTo { s with cyc := budget }
  exact ⟨r, hr.execute_eq, hr.final_cyc (by simp only; omega)⟩

/-- Settles O45: the steps of the loop, by `RunsTo.exists_steps`, and the counter at its end. -/
theorem executeIsABoundedRunOfSteps : Obligations.ExecuteIsABoundedRunOfSteps := by
  intro budget s
  obtain ⟨r, hr⟩ := exists_runsTo { s with cyc := budget }
  obtain ⟨k, hk, hmax, hsixth, hpos⟩ := hr.exists_steps
  refine ⟨k, r, hr.execute_eq, hk.runSteps_eq [], hmax, hsixth, fun hbudget => ?_, fun hbudget => ?_, fun j hj => ?_⟩
  · cases hr.execute_eq.symm.trans (RunsTo.stop (s := { s with cyc := budget }) hbudget.not_gt).execute_eq
    rfl
  · exact (hr.final_cyc (by simp only; omega)).2
  · obtain ⟨q, hq, hqpos⟩ := hpos j hj
    exact ⟨q, hq.runSteps_eq [], hqpos⟩

/-- Settles O46. -/
theorem executeComposes : Obligations.ExecuteComposes := by
  intro b1 b2 s hb2
  obtain ⟨r1, hr1⟩ := exists_runsTo { s with cyc := b1 }
  obtain ⟨r2, hr2⟩ := exists_runsTo { r1.final with cyc := r1.final.cyc + b2 }
  exact ⟨r1, r2, hr1.execute_eq, hr2.execute_eq, (hr1.extend hb2 hr2).execute_eq⟩

/-- Settles O47: with the counter begun at the budget instead of at 0, the last of the `k + 1` steps is the one that
exhausts it. -/
theorem budgetDecidesWhereExecuteStops : Obligations.BudgetDecidesWhereExecuteStops := by
  intro s k q q' budget hq hq' hlow hhigh
  have hsteps := (steps_of_runSteps hq).add_cyc budget
  have hsteps' := (steps_of_runSteps hq').add_cyc budget
  have hrun := hsteps.runsTo hsteps' (by simp only; omega) (by simp only; omega)
  rw [Int.add_comm budget]
  apply RunsTo.execute_eq
  rwa [Int.zero_add] at hrun

/-- Settles O48: a counter of 1 lets one step be taken, and no step leaves a positive counter of it. -/
theorem executeOneRunsOneInstruction : Obligations.ExecuteOneRunsOneInstruction := by
  intro s
  obtain ⟨t, hstep, hlt⟩ := exists_step_cyc_lt { s with cyc := 1 }
  have hrun := RunsTo.pass Int.one_pos hstep (.stop (not_lt.mpr (Int.lt_add_one_iff.mp hlt)))
  rw [List.append_nil] at hrun
  exact ⟨t, hstep, hrun.execute_eq⟩

/-- Settles O49. -/
theorem eventsNameUndefinedOpcodes : Obligations.EventsNameUndefinedOpcodes := fun _ _ _ h =>
  (runsTo_of_execute h).event_undefined

end Sys2Proof.Machine
end

section
/-! Proofs about the block and its host: Reset, the refusals before it, and the documented flow (spec 10_state.md R13 to
R23; 70_reset_and_hazards.md R97 to R102). -/

namespace Sys2Proof.Machine

/-! ### Reset -/

theorem State.reset_flowInv : State.reset.FlowInv :=
  ⟨Memory.wf_cleared, rfl, rfl, rfl, rfl, rfl, rfl, rfl, by decide⟩

/-- Settles O37. -/
theorem resetMeetsTheInvariants : Obligations.ResetMeetsTheInvariants :=
  ⟨Memory.wf_cleared, State.reset_flowInv⟩

/-- Settles O50. -/
theorem resetLeavesTheResetState : Obligations.ResetLeavesTheResetState :=
  ⟨fun s => ⟨s.resetOp_spec, rfl, rfl⟩, rfl⟩

/-- Settles O41, by the operation. -/
theorem nothingButResetBeforeTheFirstReset : Obligations.NothingButResetBeforeTheFirstReset := by
  have hrefused : ∀ c, c ≠ .reset → hostStep .unreset c = .refused .beforeFirstReset := fun c hc => by
    cases c with
    | reset => exact absurd rfl hc
    | write | execute => rfl
  refine ⟨fun c => ⟨fun ⟨r, hr⟩ => ?_, fun hc => ?_⟩, hrefused, fun _ => rfl⟩
  · by_contra hc
    cases (hrefused c hc).symm.trans hr
  · subst hc
    exact ⟨_, rfl⟩

/-! ### The documented flow -/

/-- No byte is both zero and negative (R74). -/
theorem loadA_not_z_and_n (s : State) (v : Byte) : ¬((s.loadA v).p.z = true ∧ (s.loadA v).p.n = true) := by
  rw [State.loadA_spec]
  rintro ⟨hz, hn⟩
  rw [eq_of_beq hz] at hn
  cases hn

/-- A step writes neither `X`, `Y` nor the unused flags, and `Z` and `N` only by a load. -/
theorem step_keeps_flowInv {s t : State} (hs : s.FlowInv) (h : step s = .next t) : t.FlowInv := by
  have hwf : t.mem.wf := stepKeepsMemoryCanonical s t hs.1 h
  obtain ⟨-, hx, hy, hc, hi, hd, hb, hv, hzn⟩ := hs
  rcases step_cases h with ⟨-, v, n, rfl⟩ | ⟨-, rfl⟩ | ⟨-, rfl⟩
  · exact ⟨hwf, hx, hy, hc, hi, hd, hb, hv, loadA_not_z_and_n _ v⟩
  · exact ⟨hwf, hx, hy, hc, hi, hd, hb, hv, hzn⟩
  · exact ⟨hwf, hx, hy, hc, hi, hd, hb, hv, hzn⟩

/-- A whole Execute keeps the invariant, whatever the budget: the counter is no part of it. -/
theorem hostExecute_keeps_flowInv {s : State} {budget : Int} {r : HostReply} (hs : s.FlowInv)
    (h : s.hostExecute budget = .next r) : r.block.FlowInv := by
  obtain ⟨q, hq⟩ := exists_runsTo { s with cyc := budget }
  rw [State.hostExecute, hq.execute_eq] at h
  cases h
  exact hq.keeps (P := State.FlowInv) step_keeps_flowInv hs

/-- Settles O38, by the operation and the block: Reset gives the reset state, a write changes memory alone, and Execute
is a run of steps. -/
theorem hostOperationsKeepTheFlow : Obligations.HostOperationsKeepTheFlow := by
  intro b c r hb h
  cases b with
  | unreset =>
    cases c with
    | reset => cases h; exact State.reset_flowInv
    | write | execute => cases h
  | ready s =>
    cases c with
    | reset => cases h; exact State.reset_flowInv
    | write a v =>
      cases h
      obtain ⟨hwf, hrest⟩ := hb
      exact ⟨Memory.wf_write a v hwf, hrest⟩
    | execute budget => exact hostExecute_keeps_flowInv hb h

end Sys2Proof.Machine
end
